-- ==== Sys2Proof/Word.lean ====
section
/-!
DEFINITION. Word.lean: the decoded instruction word, the text of a program line, and what one place of the
program store holds.
-/

namespace Sys2Proof

/-- The 32-bit decoded instruction word (30_encoding.md R80). -/
abbrev InstrWord := BitVec 32

/-- The text of one program line, character by character (30_encoding.md R60). -/
abbrev Text := List Char

/-- One place of the program store. The architectural content is a line of text (20_memory.md R50). An
implementation whose program store holds decoded words is described by 30_encoding.md R83, so a place may hold a
word instead (DESIGN CHOICE: one store for both, log entry 1). -/
inductive ProgLine where
  | text (line : Text)
  | word (w : InstrWord)
  deriving DecidableEq, Repr, Inhabited

end Sys2Proof
end

