-- ==== Sys2Proof/Config.lean ====
section
/-!
DEFINITION. Config.lean: the implementation parameters of 00_scope.md R8 as named constants, and the free values,
which are constants with no body: nothing can be proved of their values.
-/

namespace Sys2Proof

/-- `NREG`: the number of registers (00_scope.md R8, 10_state.md R20). -/
abbrev Config.nreg : Nat := 32

/-- `VMIN` and `VMAX`: the bounds of the value domain V (00_scope.md R8, R9). -/
abbrev Config.vMin : Int := -65535
abbrev Config.vMax : Int := 65535

/-- `IMM_MIN` and `IMM_MAX`: the bounds of an immediate (00_scope.md R8, 30_encoding.md R65). -/
abbrev Config.immMin : Int := -65535
abbrev Config.immMax : Int := 65535

/-- `OFF_MIN` and `OFF_MAX`: the bounds of an offset (00_scope.md R8, 30_encoding.md R65). -/
abbrev Config.offMin : Int := -65535
abbrev Config.offMax : Int := 65535

/-- `AMIN` and `AMAX`: the first and the last data memory address (00_scope.md R8, 20_memory.md R40). -/
abbrev Config.aMin : Int := 0
abbrev Config.aMax : Int := 65535

/-- `MEM_CELLS`: the number of data memory cells (00_scope.md R8). -/
abbrev Config.memCells : Nat := 65536

/-- `REG_BITS`: the width of a value in two's complement (00_scope.md R8, R9). -/
abbrev Config.regBits : Nat := 17

/-- `PROG_LEN_MAX`: OPEN, the largest program the program store holds (00_scope.md R8, 92_eei_decisions.md D17). -/
opaque Config.progLenMax : Nat

/-- `STEP_LIMIT_BITS`: OPEN, the width of STEP_LIMIT_VAL (10_state.md R34, 92_eei_decisions.md D28). -/
opaque Config.stepLimitBits : Nat

/-- FREE VALUE. What RETVAL holds while OUTCOME is not RETURN: any value (10_state.md R34,
93_implementation_defined.md U11). It is applied to `State.freeCount`, so that two draws may differ. -/
opaque Config.unspecifiedRetval : Nat → BitVec Config.regBits

/-- FREE VALUE. The content of the place of that index of the program store when the host never placed a line there;
the spec states none (DESIGN CHOICE, log entry 5). -/
opaque Config.unloadedLine : Nat → ProgLine

end Sys2Proof
end

