-- ==== Sys2Proof/Syntax.lean ====
section
/-!
DEFINITION. Syntax.lean: the ten opcodes and the decoded instruction, the closed tagged variant of 30_encoding.md R76.
-/

namespace Sys2Proof

/-- A register index, 0..31 (10_state.md R20). -/
abbrev Reg := Fin Config.nreg

/-- The fixed opcode set (00_scope.md R3). -/
inductive Opcode where
  | mov | ret | add | sub | mul | div | str | ldr | jmp | jz
  deriving DecidableEq, Repr

/-- The decoded instruction: one constructor per opcode, operands in the syntax order of 30_encoding.md R66 and R76. -/
inductive Instr where
  | mov (rd : Reg) (imm : Int)
  | ret (rs : Reg)
  | add (rd rs1 rs2 : Reg)
  | sub (rd rs1 rs2 : Reg)
  | mul (rd rs1 rs2 : Reg)
  | div (rd rs1 rs2 : Reg)
  | str (rbase : Reg) (off : Int) (rval : Reg)
  | ldr (rdest rbase : Reg) (off : Int)
  | jmp (off : Int)
  | jz (rcond : Reg) (off : Int)
  deriving DecidableEq, Repr

/-- The opcode of an instruction. -/
def Instr.opcode : Instr → Opcode
  | .mov _ _ => .mov
  | .ret _ => .ret
  | .add _ _ _ => .add
  | .sub _ _ _ => .sub
  | .mul _ _ _ => .mul
  | .div _ _ _ => .div
  | .str _ _ _ => .str
  | .ldr _ _ _ => .ldr
  | .jmp _ => .jmp
  | .jz _ _ => .jz

end Sys2Proof
end

