-- ==== Sys2Proof/WellFormed.lean ====
section
/-!
DEFINITION. WellFormed.lean: the static range checks of a decoded instruction (30_encoding.md R65, R76). A register
operand is in 0..31 by its type.
-/

namespace Sys2Proof

/-- An immediate is in range (30_encoding.md R65). -/
abbrev ImmOk (v : Int) : Prop := Config.immMin ≤ v ∧ v ≤ Config.immMax

/-- An offset is in range (30_encoding.md R65). -/
abbrev OffOk (v : Int) : Prop := Config.offMin ≤ v ∧ v ≤ Config.offMax

/-- The range every immediate or offset of a decoded instruction satisfies (30_encoding.md R76). -/
def Instr.wellFormed : Instr → Bool
  | .mov _ imm => decide (ImmOk imm)
  | .ret _ => true
  | .add _ _ _ => true
  | .sub _ _ _ => true
  | .mul _ _ _ => true
  | .div _ _ _ => true
  | .str _ off _ => decide (OffOk off)
  | .ldr _ _ off => decide (OffOk off)
  | .jmp off => decide (OffOk off)
  | .jz _ off => decide (OffOk off)

/-- A well-formed instruction. -/
abbrev Instr.WellFormed (i : Instr) : Prop := i.wellFormed = true

end Sys2Proof
end

