-- ==== Sys2Proof/Decode.lean ====
section
/-!
DEFINITION. Decode.lean: the Instruction Decoder (30_encoding.md R60 to R75), the decoded instruction word
(R80 to R83), and after them the two encoders: to the word (R84) and to a line of text.
-/

namespace Sys2Proof

/-! ### Why a line is rejected

The host learns only INVALID_INSTRUCTION, whichever check fails (30_encoding.md R75, 60_exceptions.md R202); the
names are the model's (DESIGN CHOICE, log entry 17). -/

/-- The check of the decoder that a line fails. -/
inductive DecodeReject where
  /-- no token on the line (R61) -/
  | noToken
  /-- the first token is not one of the ten mnemonics (R62) -/
  | unknownMnemonic
  /-- too many or too few operands (R67) -/
  | wrongArity
  /-- a register position holds no register token (R64, R68) -/
  | notARegister
  /-- a register index outside 0..31 (R64) -/
  | registerOutOfRange
  /-- an immediate or offset position holds no integer literal (R63, R68) -/
  | notAnInteger
  /-- an immediate or offset outside -65535..65535 (R65) -/
  | numberOutOfRange
  /-- a word that matches no row of R82 (R83) -/
  | noWordRow
  /-- a word whose imm17 field is 0x10000 (R83) -/
  | reservedImmediate
  deriving DecidableEq, Repr

/-! ### Tokens (R61) -/

/-- The six whitespace characters (30_encoding.md R61). -/
def isSpace (c : Char) : Bool :=
  c.toNat == 0x20 || c.toNat == 0x09 || c.toNat == 0x0A || c.toNat == 0x0B || c.toNat == 0x0C || c.toNat == 0x0D

/-- The maximal runs of non-whitespace characters of a line, in order (30_encoding.md R61). -/
def tokens : Text → List Text
  | [] => []
  | c :: rest =>
    if isSpace c then tokens rest
    else
      match rest with
      | [] => [[c]]
      | d :: _ =>
        if isSpace d then [c] :: tokens rest
        else
          match tokens rest with
          | [] => [[c]]
          | t :: ts => (c :: t) :: ts

/-! ### Integer literals and register tokens (R63, R64) -/

/-- An ASCII decimal digit. -/
def isDigit (c : Char) : Bool := decide (48 ≤ c.toNat) && decide (c.toNat ≤ 57)

/-- The value of decimal digits read after the number `acc`; none at a character that is no digit. -/
def digitsValue (acc : Nat) : Text → Option Nat
  | [] => some acc
  | c :: cs => if isDigit c then digitsValue (acc * 10 + (c.toNat - 48)) cs else none

/-- The value of `[0-9]+`. -/
def decimalValue (t : Text) : Option Nat := if t.isEmpty then none else digitsValue 0 t

/-- The value of an integer literal `[+-]?[0-9]+` (30_encoding.md R63). -/
def literalValue : Text → Option Int
  | [] => none
  | c :: cs =>
    if c = '-' then (decimalValue cs).map (fun n : Nat => -Int.ofNat n)
    else if c = '+' then (decimalValue cs).map Int.ofNat
    else (decimalValue (c :: cs)).map Int.ofNat

/-- The index of a register token: `R` followed at once by an integer literal (30_encoding.md R64). -/
def registerIndex : Text → Option Int
  | [] => none
  | c :: cs => if c = 'R' then literalValue cs else none

/-! ### Operand forms (R66) -/

/-- The kind an operand position asks for. -/
inductive OperandKind where
  | reg | imm | off
  deriving DecidableEq, Repr

/-- A decoded operand. -/
inductive Operand where
  | reg (r : Reg)
  | num (v : Int)
  deriving DecidableEq, Repr

/-- The one operand form of each opcode (30_encoding.md R66). -/
def Opcode.form : Opcode → List OperandKind
  | .mov => [.reg, .imm]
  | .ret => [.reg]
  | .add => [.reg, .reg, .reg]
  | .sub => [.reg, .reg, .reg]
  | .mul => [.reg, .reg, .reg]
  | .div => [.reg, .reg, .reg]
  | .str => [.reg, .off, .reg]
  | .ldr => [.reg, .reg, .off]
  | .jmp => [.off]
  | .jz => [.reg, .off]

/-- The mnemonic of each opcode (30_encoding.md R62). -/
def Opcode.mnemonic : Opcode → Text
  | .mov => ['M', 'O', 'V']
  | .ret => ['R', 'E', 'T']
  | .add => ['A', 'D', 'D']
  | .sub => ['S', 'U', 'B']
  | .mul => ['M', 'U', 'L']
  | .div => ['D', 'I', 'V']
  | .str => ['S', 'T', 'R']
  | .ldr => ['L', 'D', 'R']
  | .jmp => ['J', 'M', 'P']
  | .jz => ['J', 'Z']

/-- The ten opcodes in the order of 00_scope.md R3. -/
def opcodes : List Opcode := [.mov, .ret, .add, .sub, .mul, .div, .str, .ldr, .jmp, .jz]

/-- The opcode a mnemonic names, character for character (30_encoding.md R62). -/
def Opcode.ofMnemonic (t : Text) : Option Opcode := opcodes.find? (fun o => decide (o.mnemonic = t))

/-! ### The decoder function (R75) -/

/-- A number within bounds (30_encoding.md R63, R65). -/
def decodeNumber (lo hi : Int) (t : Text) : Except DecodeReject Operand :=
  match literalValue t with
  | none => .error .notAnInteger
  | some v => if lo ≤ v ∧ v ≤ hi then .ok (.num v) else .error .numberOutOfRange

/-- A register (30_encoding.md R64). -/
def decodeRegister (t : Text) : Except DecodeReject Operand :=
  match registerIndex t with
  | none => .error .notARegister
  | some k =>
    if h : 0 ≤ k ∧ k < (Config.nreg : Int) then .ok (.reg ⟨k.toNat, (Int.toNat_lt h.1).mpr h.2⟩)
    else .error .registerOutOfRange

/-- One operand, by the kind its position asks for. -/
def decodeOperand : OperandKind → Text → Except DecodeReject Operand
  | .reg, t => decodeRegister t
  | .imm, t => decodeNumber Config.immMin Config.immMax t
  | .off, t => decodeNumber Config.offMin Config.offMax t

/-- Every operand of a line; the number of operands must be the form's (30_encoding.md R67, R69). -/
def decodeOperands : List OperandKind → List Text → Except DecodeReject (List Operand)
  | [], [] => .ok []
  | k :: ks, t :: ts =>
    match decodeOperand k t with
    | .error e => .error e
    | .ok v =>
      match decodeOperands ks ts with
      | .error e => .error e
      | .ok vs => .ok (v :: vs)
  | [], _ :: _ => .error .wrongArity
  | _ :: _, [] => .error .wrongArity

/-- `Instr(m, vals)`: the constructor of an opcode over operands in syntax order (30_encoding.md R76). -/
def Opcode.build : Opcode → List Operand → Option Instr
  | .mov, [.reg rd, .num imm] => some (.mov rd imm)
  | .ret, [.reg rs] => some (.ret rs)
  | .add, [.reg rd, .reg rs1, .reg rs2] => some (.add rd rs1 rs2)
  | .sub, [.reg rd, .reg rs1, .reg rs2] => some (.sub rd rs1 rs2)
  | .mul, [.reg rd, .reg rs1, .reg rs2] => some (.mul rd rs1 rs2)
  | .div, [.reg rd, .reg rs1, .reg rs2] => some (.div rd rs1 rs2)
  | .str, [.reg rbase, .num off, .reg rval] => some (.str rbase off rval)
  | .ldr, [.reg rdest, .reg rbase, .num off] => some (.ldr rdest rbase off)
  | .jmp, [.num off] => some (.jmp off)
  | .jz, [.reg rcond, .num off] => some (.jz rcond off)
  | _, _ => none

/-- The decoder: a total function of a line's text (30_encoding.md R75). -/
def decodeText (s : Text) : Except DecodeReject Instr :=
  match tokens s with
  | [] => .error .noToken
  | m :: ops =>
    match Opcode.ofMnemonic m with
    | none => .error .unknownMnemonic
    | some op =>
      if ops.length = op.form.length then
        match decodeOperands op.form ops with
        | .error e => .error e
        | .ok vals =>
          match op.build vals with
          | some i => .ok i
          | none => .error .wrongArity
      else .error .wrongArity

/-! ### The decoded instruction word (R80 to R83) -/

/-- The five word formats (30_encoding.md R82). -/
inductive Format where
  | ri | r | rrr | rri | i
  deriving DecidableEq, Repr

/-- The formats that hold an immediate or offset (30_encoding.md R80, R83). -/
def Format.hasImm : Format → Bool
  | .ri => true
  | .r => false
  | .rrr => false
  | .rri => true
  | .i => true

/-- One row of the table of 30_encoding.md R82. -/
structure OpRow where
  op : Opcode
  format : Format
  pat : InstrWord
  mask : InstrWord
  deriving DecidableEq, Repr

/-- The table of 30_encoding.md R82. -/
def opRows : List OpRow := [
  ⟨.mov, .ri,  0x00000000, 0xF07E0000⟩,
  ⟨.ret, .r,   0x10000000, 0xF07FFFFF⟩,
  ⟨.add, .rrr, 0x20000000, 0xF003FFE0⟩,
  ⟨.sub, .rrr, 0x30000000, 0xF003FFE0⟩,
  ⟨.mul, .rrr, 0x40000000, 0xF003FFE0⟩,
  ⟨.div, .rrr, 0x50000000, 0xF003FFE0⟩,
  ⟨.str, .rri, 0x60000000, 0xF0020000⟩,
  ⟨.ldr, .rri, 0x70000000, 0xF0020000⟩,
  ⟨.jmp, .i,   0x80000000, 0xFFFE0000⟩,
  ⟨.jz,  .ri,  0x90000000, 0xF07E0000⟩]

/-- `(w & mask) = match` (30_encoding.md R83). -/
def OpRow.matches (row : OpRow) (w : InstrWord) : Bool := decide (w &&& row.mask = row.pat)

/-- The first, second and third register fields (30_encoding.md R80, R81). -/
def raField (w : InstrWord) : Reg := (w.extractLsb' 23 5).toFin
def rbField (w : InstrWord) : Reg := (w.extractLsb' 18 5).toFin
def rcField (w : InstrWord) : Reg := (w.extractLsb' 0 5).toFin

/-- The 17-bit immediate field and its signed value (30_encoding.md R80, R81). -/
def imm17Field (w : InstrWord) : BitVec Config.regBits := w.extractLsb' 0 Config.regBits
def immField (w : InstrWord) : Int := (imm17Field w).toInt

/-- The operands of a word, by the field mapping of its opcode's row (30_encoding.md R82). -/
def Opcode.ofWord : Opcode → InstrWord → Instr
  | .mov, w => .mov (raField w) (immField w)
  | .ret, w => .ret (raField w)
  | .add, w => .add (raField w) (rbField w) (rcField w)
  | .sub, w => .sub (raField w) (rbField w) (rcField w)
  | .mul, w => .mul (raField w) (rbField w) (rcField w)
  | .div, w => .div (raField w) (rbField w) (rcField w)
  | .str, w => .str (raField w) (immField w) (rbField w)
  | .ldr, w => .ldr (raField w) (rbField w) (immField w)
  | .jmp, w => .jmp (immField w)
  | .jz, w => .jz (raField w) (immField w)

/-- The instruction of a valid word; a word is valid only if exactly one row matches it and its immediate, where its
format has one, is not -65536 (30_encoding.md R83). -/
def decodeWord (w : InstrWord) : Except DecodeReject Instr :=
  match opRows.filter (fun row => row.matches w) with
  | [row] =>
    if row.format.hasImm && decide (imm17Field w = 0x10000) then .error .reservedImmediate
    else .ok (row.op.ofWord w)
  | _ => .error .noWordRow

/-- The instruction of one place of the program store: its text by R75, its word by R83. -/
def decodeLine : ProgLine → Except DecodeReject Instr
  | .text s => decodeText s
  | .word w => decodeWord w

/-! ### The encoder to the word (R84) -/

/-- The opcode number (30_encoding.md R82). -/
def Opcode.number : Opcode → BitVec 4
  | .mov => 0
  | .ret => 1
  | .add => 2
  | .sub => 3
  | .mul => 4
  | .div => 5
  | .str => 6
  | .ldr => 7
  | .jmp => 8
  | .jz => 9

/-- A register as a 5-bit field. -/
def regBits (r : Reg) : BitVec 5 := BitVec.ofFin r

/-- The low 17 bits of a two's-complement value. -/
def immBits (v : Int) : BitVec Config.regBits := BitVec.ofInt Config.regBits v

/-- The five word layouts of 30_encoding.md R80; every bit not named is 0. -/
def packRI (op : BitVec 4) (ra : Reg) (imm : Int) : InstrWord := op ++ regBits ra ++ 0#6 ++ immBits imm
def packR (op : BitVec 4) (ra : Reg) : InstrWord := op ++ regBits ra ++ 0#23
def packRRR (op : BitVec 4) (ra rb rc : Reg) : InstrWord := op ++ regBits ra ++ regBits rb ++ 0#13 ++ regBits rc
def packRRI (op : BitVec 4) (ra rb : Reg) (imm : Int) : InstrWord :=
  op ++ regBits ra ++ regBits rb ++ 0#1 ++ immBits imm
def packI (op : BitVec 4) (imm : Int) : InstrWord := op ++ 0#11 ++ immBits imm

/-- The word of a well-formed instruction (30_encoding.md R84). -/
def encode : Instr → InstrWord
  | .mov rd imm => packRI Opcode.mov.number rd imm
  | .ret rs => packR Opcode.ret.number rs
  | .add rd rs1 rs2 => packRRR Opcode.add.number rd rs1 rs2
  | .sub rd rs1 rs2 => packRRR Opcode.sub.number rd rs1 rs2
  | .mul rd rs1 rs2 => packRRR Opcode.mul.number rd rs1 rs2
  | .div rd rs1 rs2 => packRRR Opcode.div.number rd rs1 rs2
  | .str rbase off rval => packRRI Opcode.str.number rbase rval off
  | .ldr rdest rbase off => packRRI Opcode.ldr.number rdest rbase off
  | .jmp off => packI Opcode.jmp.number off
  | .jz rcond off => packRI Opcode.jz.number rcond off

/-! ### The encoder to a line of text (R60, R66)

Plain form: single spaces, no leading zeros, no plus sign, the form every reading of the source accepts
(92_eei_decisions.md D4 to D6). -/

/-- The digits of `n` put before `acc`; `fuel` bounds how many. -/
def digitsOnto : Nat → Nat → Text → Text
  | 0, _, acc => acc
  | fuel + 1, n, acc =>
    let acc' := Char.ofNat (48 + n % 10) :: acc
    if n / 10 = 0 then acc' else digitsOnto fuel (n / 10) acc'

/-- The decimal digits of a natural number. -/
def natText (n : Nat) : Text := digitsOnto (n + 1) n []

/-- A signed decimal integer (30_encoding.md R63). -/
def intText (v : Int) : Text := if v < 0 then '-' :: natText v.natAbs else natText v.natAbs

/-- A register token (30_encoding.md R64). -/
def regText (r : Reg) : Text := 'R' :: natText r.val

/-- Tokens with one space before each of the later ones. -/
def joinTokens : List Text → Text
  | [] => []
  | [t] => t
  | t :: ts => t ++ ' ' :: joinTokens ts

/-- The operand tokens of an instruction in syntax order (30_encoding.md R66). -/
def Instr.operandTexts : Instr → List Text
  | .mov rd imm => [regText rd, intText imm]
  | .ret rs => [regText rs]
  | .add rd rs1 rs2 => [regText rd, regText rs1, regText rs2]
  | .sub rd rs1 rs2 => [regText rd, regText rs1, regText rs2]
  | .mul rd rs1 rs2 => [regText rd, regText rs1, regText rs2]
  | .div rd rs1 rs2 => [regText rd, regText rs1, regText rs2]
  | .str rbase off rval => [regText rbase, intText off, regText rval]
  | .ldr rdest rbase off => [regText rdest, regText rbase, intText off]
  | .jmp off => [intText off]
  | .jz rcond off => [regText rcond, intText off]

/-- The line of text of a well-formed instruction. -/
def encodeText (i : Instr) : Text := joinTokens (i.opcode.mnemonic :: i.operandTexts)

/-! ### The host's reading of a table word -/

/-- The word whose low `nbits` bits are those of `w` and whose other bits are 0. -/
def tableWord (nbits w : Nat) : InstrWord := BitVec.ofNat 32 (w % 2 ^ nbits)

/-- The instruction the word decoder reads from the bits of an opcode-table row. -/
def decodeTableWord (nbits w : Nat) : Option Instr :=
  match decodeWord (tableWord nbits w) with
  | .ok i => some i
  | .error _ => none

end Sys2Proof
end

