-- ==== Sys2Proof/Machine/State.lean ====
section
/-!
DEFINITION. Machine/State.lean: the state of the CORE as plain data (10_state.md R36, R34; 20_memory.md R40, R50), its
value at reset, and the reasons a step can stop.
-/

namespace Sys2Proof.Machine

/-- What the register OUTCOME shows (60_exceptions.md R201). RUNNING and the six terminal kinds are the run outcome
of 10_state.md R29; IDLE is no outcome. The value of `Return(v)` is held once, in RETVAL. -/
inductive OutcomeCode where
  /-- no run since power-on -/
  | idle
  /-- the run continues -/
  | running
  /-- halted by a completed RET -/
  | returned
  /-- a line failed to decode -/
  | invalidInstruction
  /-- the pc left 0..N-1 -/
  | noReturn
  /-- the step limit was reached -/
  | stepLimitExceeded
  /-- DIV with a zero divisor -/
  | divisionByZero
  /-- an ADD, SUB or MUL result outside V -/
  | arithmeticOverflow
  deriving DecidableEq, Repr

/-- Data memory: the cells that do not hold the run-start value, by address, addresses rising
(20_memory.md R40: a cell is the unit of addressing and holds one integer, so a pair is an address and a value, log
entry 11). -/
abbrev Memory := List (Nat × Int)

/-- A program store: lines by line index, indices rising (20_memory.md R50). -/
abbrev Program := List (Nat × ProgLine)

/-- The parameters START latches for the whole run (10_state.md R36 `Params`, 70_reset_and_hazards.md R230). -/
structure RunParams where
  /-- the latched program store contents -/
  lines : Program
  /-- `N`, the number of lines -/
  n : Nat
  /-- `STEP_LIMIT`; none is `INF` -/
  limit : Option Nat
  deriving DecidableEq, Repr

/-- Everything the spec gives the machine. -/
structure State where
  /-- the program counter, a line index with no wrap (R24) -/
  pc : Int
  /-- the register file R0..R31 (R20) -/
  x : Vector Int Config.nreg
  /-- the data memory (20_memory.md R40) -/
  mem : Memory
  /-- the run outcome, and the register OUTCOME (R29, R34) -/
  outcome : OutcomeCode
  /-- the completed instructions of this run (R30) -/
  steps : Nat
  /-- the decode cache: line index to decoded instruction, indices rising (R31) -/
  dec : List (Nat × Instr)
  /-- what START latched (R36) -/
  run : RunParams
  /-- the program store as the host last wrote it (20_memory.md R50); that a run leaves it there is the model's choice
  (DESIGN CHOICE, log entry 20) -/
  store : Program
  /-- the register RETVAL (R34) -/
  retval : BitVec Config.regBits
  /-- the register PROG_LEN (R34) -/
  progLen : Nat
  /-- the register STEP_LIMIT_EN (R34) -/
  stepLimitEn : Bool
  /-- the register STEP_LIMIT_VAL (R34) -/
  stepLimitVal : Nat
  /-- the MODEL's own counter of draws of `Config.unspecifiedRetval` (log entry 4) -/
  freeCount : Nat
  deriving DecidableEq, Repr

/-- Why a step stops without a next state. -/
inductive Fault where
  /-- Raised by the step alone, never by an instruction, in a state whose OUTCOME is not RUNNING: no step is enabled
  there (40_engine.md R106, 60_exceptions.md R211). Safe (log entry 6). -/
  | noStepEnabled
  deriving DecidableEq, Repr

/-- What the model refuses. -/
inductive Refusal where
  /-- Raised by an arm of `exec` whose instruction has no meaning yet (none is left). Safe. -/
  | notModelled (mnemonic : String)
  /-- Raised by the host's load of a line while a run goes on: the model gives the host no such move
  (70_reset_and_hazards.md R246, 93_implementation_defined.md U16). Never by a step. Safe (log entry 10). -/
  | storeLocked
  /-- Raised by a host move that would load a program longer than PROG_LEN_MAX
  (93_implementation_defined.md U13). Never by a step. Safe (log entry 9). -/
  | programTooLong
  /-- Raised by a host write of a step limit that does not fit in STEP_LIMIT_VAL (92_eei_decisions.md D28). Never by a
  step. Safe (log entry 9). -/
  | stepLimitTooLarge
  deriving DecidableEq, Repr

/-- The machine at run start (70_reset_and_hazards.md R230, 10_state.md R37) with no program placed: no line, PROG_LEN 0,
no step limit. RETVAL, PROG_LEN and STEP_LIMIT_VAL have no value in the spec here: 0 (DESIGN CHOICE, log entry 3). -/
def State.reset : State where
  pc := 0
  x := Vector.replicate Config.nreg 0
  mem := []
  outcome := .running
  steps := 0
  dec := []
  run := { lines := [], n := 0, limit := none }
  store := []
  retval := 0
  progLen := 0
  stepLimitEn := false
  stepLimitVal := 0
  freeCount := 0

end Sys2Proof.Machine
end

