-- ==== Sys2Proof/Machine/Table.lean ====
section
/-!
DEFINITION. Machine/Table.lean: partial maps from natural numbers as lists of pairs with rising keys; data memory, the
program store and the decode cache are such maps.
-/

namespace Sys2Proof.Machine

/-- The keys of the list rise strictly. -/
abbrev Table.Sorted {α : Type} (t : List (Nat × α)) : Prop := t.Pairwise (fun a b => a.1 < b.1)

/-- The value at a key. -/
def Table.find {α : Type} (k : Nat) : List (Nat × α) → Option α
  | [] => none
  | (j, v) :: t => if j = k then some v else Table.find k t

/-- The map with `v` at `k`. -/
def Table.insert {α : Type} (k : Nat) (v : α) : List (Nat × α) → List (Nat × α)
  | [] => [(k, v)]
  | (j, u) :: t =>
    if k < j then (k, v) :: (j, u) :: t
    else if k = j then (k, v) :: t
    else (j, u) :: Table.insert k v t

/-- The map with nothing at `k`. -/
def Table.erase {α : Type} (k : Nat) (t : List (Nat × α)) : List (Nat × α) :=
  t.filter (fun e => decide (e.1 ≠ k))

end Sys2Proof.Machine
end

