-- ==== Sys2Proof/Machine/Ops.lean ====
section
/-!
DEFINITION. Machine/Ops.lean: the named operations over registers, data memory, the pc, the outcome, the program store and
the decode cache. Every read and write of the machine goes through them.
-/

namespace Sys2Proof.Machine

/-- The answer of an instruction, a step or a host move. -/
abbrev Answer := Host.Outcome State Fault Refusal

/-- Applies `f` to the next state, if there is one. -/
def onNext (f : State → State) : Answer → Answer
  | .next t => .next (f t)
  | .fault e => .fault e
  | .refused e => .refused e

/-! ### Registers (10_state.md R20 to R23) -/

/-- `x[r]`. No register has a hardwired value (R21). -/
def State.reg (s : State) (r : Reg) : Int := s.x[r.val]

/-- `x[r] <- v`. -/
def State.setReg (s : State) (r : Reg) (v : Int) : State := { s with x := s.x.set r.val v r.isLt }

/-! ### Program counter (10_state.md R24, R26) -/

/-- `pc <- t`; the target is not checked here (R27). -/
def State.setPc (s : State) (t : Int) : State := { s with pc := t }

/-- `pc <- pc + 1`. -/
def State.advance (s : State) : State := s.setPc (s.pc + 1)

/-! ### Data memory (20_memory.md R40 to R44) -/

/-- What a cell that nothing has written reads as: the run-start value 0 (R42). -/
def Memory.unlisted : Int := 0

/-- The canonical form: addresses rise, and no entry equals what an unlisted address reads as. -/
abbrev Memory.wf (m : Memory) : Prop := Table.Sorted m ∧ ∀ e ∈ m, e.2 ≠ Memory.unlisted

/-- The cell at an address. -/
def Memory.read (m : Memory) (a : Nat) : Int := (Table.find a m).getD Memory.unlisted

/-- The memory with `v` in the cell at `a`. -/
def Memory.write (m : Memory) (a : Nat) (v : Int) : Memory :=
  if v = Memory.unlisted then Table.erase a m else Table.insert a v m

/-- `MemRead(a, 1)` (00_scope.md R11). -/
def State.memRead (s : State) (a : Nat) : Int := Memory.read s.mem a

/-- `MemWrite(a, 1, v)` (00_scope.md R11). -/
def State.memWrite (s : State) (a : Nat) (v : Int) : State := { s with mem := Memory.write s.mem a v }

/-! ### Outcomes: the taking of an exception (60_exceptions.md R200 to R211)

There is no handler, no saved pc and no return from a failure (R209, R211), so no return operation stands beside
`raise`. -/

/-- The code the register OUTCOME shows (60_exceptions.md R201). -/
def OutcomeCode.code : OutcomeCode → BitVec 3
  | .idle => 0
  | .running => 1
  | .returned => 2
  | .invalidInstruction => 3
  | .noReturn => 4
  | .stepLimitExceeded => 5
  | .divisionByZero => 6
  | .arithmeticOverflow => 7

/-- The five failure kinds (60_exceptions.md R201). -/
def OutcomeCode.isFailure : OutcomeCode → Bool
  | .idle => false
  | .running => false
  | .returned => false
  | .invalidInstruction => true
  | .noReturn => true
  | .stepLimitExceeded => true
  | .divisionByZero => true
  | .arithmeticOverflow => true

/-- The six terminal outcomes (60_exceptions.md R200). -/
def OutcomeCode.isTerminal (o : OutcomeCode) : Bool := o.isFailure || decide (o = .returned)

/-- `outcome <- o`. -/
def State.setOutcome (s : State) (o : OutcomeCode) : State := { s with outcome := o }

/-- `raise K()`: sets the outcome and nothing else (60_exceptions.md R209, 00_scope.md R11). -/
def raise (k : OutcomeCode) (s : State) : Answer := .next (s.setOutcome k)

/-- The state that `halt Return(v)` leaves: OUTCOME is RETURN and RETVAL records the value; the pc is kept
(41_move_return.md R122, 60_exceptions.md R201). -/
def State.haltReturn (s : State) (v : Int) : State :=
  { s with outcome := .returned, retval := BitVec.ofInt Config.regBits v }

/-! ### Step counter (10_state.md R30, 40_engine.md R104) -/

/-- `steps <- steps + 1`. -/
def State.countStep (s : State) : State := { s with steps := s.steps + 1 }

/-- Counts the instruction that led here, unless it raised an outcome (40_engine.md R104). -/
def State.countIfCompleted (s : State) : State := if s.outcome.isFailure then s else s.countStep

/-! ### Fetch and decode on first visit (40_engine.md R100, R103; 20_memory.md R50) -/

/-- The line at an index of the latched program; a line the host never placed is a free value (log entry 5). -/
def State.fetchLine (s : State) (k : Nat) : ProgLine := (Table.find k s.run.lines).getD (Config.unloadedLine k)

/-- `dec[k]`. -/
def State.cached (s : State) (k : Nat) : Option Instr := Table.find k s.dec

/-- `dec[k] <- i`. -/
def State.cacheInstr (s : State) (k : Nat) (i : Instr) : State := { s with dec := Table.insert k i s.dec }

/-- The instruction at line `k` and the state after its decode: from the cache, or decoded and cached on the first
visit (40_engine.md R103). -/
def State.visit (s : State) (k : Nat) : Except DecodeReject (Instr × State) :=
  match s.cached k with
  | some i => .ok (i, s)
  | none =>
    match decodeLine (s.fetchLine k) with
    | .error e => .error e
    | .ok i => .ok (i, s.cacheInstr k i)

end Sys2Proof.Machine
end

