-- ==== Sys2Proof/Machine/Flags.lean ====
section
/-!
DEFINITION. Machine/Flags.lean: the CORE has no flags (10_state.md R28). This file holds the tests that stand where another
machine has them: the range of a result, the zero test of JZ, the zero divisor.
-/

namespace Sys2Proof.Machine

/-- `InV(v)`: the value is in V (00_scope.md R9, R10). -/
abbrev InV (v : Int) : Prop := Config.vMin ≤ v ∧ v ≤ Config.vMax

/-- The test of JZ: the register equals exactly 0 (44_branch.md R172). -/
abbrev IsZero (v : Int) : Prop := v = 0

end Sys2Proof.Machine
end

