-- ==== Sys2Proof/Machine/Operands.lean ====
section
/-!
DEFINITION. Machine/Operands.lean: the operand forms: the effective address with its range check, the branch target, and the
two ways an instruction writes its destination register.
-/

namespace Sys2Proof.Machine

/-- `InA(a)`: the address names a cell (00_scope.md R10, 20_memory.md R40). -/
abbrev InA (a : Int) : Prop := Config.aMin ≤ a ∧ a ≤ Config.aMax

/-- The effective address of STR and LDR: base register plus offset, exact, not wrapped (20_memory.md R47,
43_load_store.md R151). -/
def State.effAddr (s : State) (rbase : Reg) (off : Int) : Int := s.reg rbase + off

/-- The target of a relative branch: the current index plus the offset (44_branch.md R170). -/
def State.branchTarget (s : State) (off : Int) : Int := s.pc + off

/-- `x[rd] <- v; pc <- pc + 1`. -/
def writeReg (rd : Reg) (v : Int) (s : State) : Answer := .next (s.setReg rd v).advance

/-- The end of ADD, SUB and MUL: an exact result outside V raises ARITHMETIC_OVERFLOW, any other is written
(42_arithmetic.md R130). -/
def writeResult (rd : Reg) (v : Int) (s : State) : Answer :=
  if InV v then writeReg rd v s else raise .arithmeticOverflow s

/-- The store of STR: nothing is written outside the address range (20_memory.md R47). -/
def State.storeCell (s : State) (a : Int) (v : Int) : State := if InA a then s.memWrite a.toNat v else s

/-- The load of LDR: the destination is kept outside the address range (20_memory.md R47). -/
def State.loadCell (s : State) (rdest : Reg) (a : Int) : State :=
  if InA a then s.setReg rdest (s.memRead a.toNat) else s

end Sys2Proof.Machine
end

