-- ==== Sys2Proof/Machine/Arith.lean ====
section
/-!
DEFINITION. Machine/Arith.lean: ADD, SUB, MUL and DIV (42_arithmetic.md).
-/

namespace Sys2Proof.Machine

/-- `a quot b`: integer division truncated toward zero (42_arithmetic.md R132). -/
def quot (a b : Int) : Int := a.tdiv b

/-- `ADD Rd Rs1 Rs2` (42_arithmetic.md R133). -/
def execAdd (rd rs1 rs2 : Reg) (s : State) : Answer := writeResult rd (s.reg rs1 + s.reg rs2) s

/-- `SUB Rd Rs1 Rs2` (42_arithmetic.md R134). -/
def execSub (rd rs1 rs2 : Reg) (s : State) : Answer := writeResult rd (s.reg rs1 - s.reg rs2) s

/-- `MUL Rd Rs1 Rs2` (42_arithmetic.md R135). -/
def execMul (rd rs1 rs2 : Reg) (s : State) : Answer := writeResult rd (s.reg rs1 * s.reg rs2) s

/-- `DIV Rd Rs1 Rs2` (42_arithmetic.md R136, R137). -/
def execDiv (rd rs1 rs2 : Reg) (s : State) : Answer :=
  if IsZero (s.reg rs2) then raise .divisionByZero s else writeReg rd (quot (s.reg rs1) (s.reg rs2)) s

end Sys2Proof.Machine
end

