-- ==== Sys2Proof/Machine/Branch.lean ====
section
/-!
DEFINITION. Machine/Branch.lean: JMP and JZ (44_branch.md).
-/

namespace Sys2Proof.Machine

/-- `JMP off` (44_branch.md R171). -/
def execJmp (off : Int) (s : State) : Answer := .next (s.setPc (s.branchTarget off))

/-- `JZ Rcond off` (44_branch.md R172). -/
def execJz (rcond : Reg) (off : Int) (s : State) : Answer :=
  .next (if IsZero (s.reg rcond) then s.setPc (s.branchTarget off) else s.advance)

end Sys2Proof.Machine
end

