-- ==== Sys2Proof/Machine/LoadStore.lean ====
section
/-!
DEFINITION. Machine/LoadStore.lean: STR and LDR (43_load_store.md).
-/

namespace Sys2Proof.Machine

/-- `STR Rbase off Rval` (43_load_store.md R150). -/
def execStr (rbase : Reg) (off : Int) (rval : Reg) (s : State) : Answer :=
  .next (s.storeCell (s.effAddr rbase off) (s.reg rval)).advance

/-- `LDR Rdest Rbase off` (43_load_store.md R152). -/
def execLdr (rdest rbase : Reg) (off : Int) (s : State) : Answer :=
  .next (s.loadCell rdest (s.effAddr rbase off)).advance

end Sys2Proof.Machine
end

