-- ==== Sys2Proof/Machine/Move.lean ====
section
/-!
DEFINITION. Machine/Move.lean: MOV and RET (41_move_return.md).
-/

namespace Sys2Proof.Machine

/-- `MOV Rd imm` (41_move_return.md R121). -/
def execMov (rd : Reg) (imm : Int) (s : State) : Answer := writeReg rd imm s

/-- `RET Rs` (41_move_return.md R122). -/
def execRet (rs : Reg) (s : State) : Answer := .next (s.haltReturn (s.reg rs))

end Sys2Proof.Machine
end

