-- ==== Sys2Proof/Machine/Dispatch.lean ====
section
/-!
DEFINITION. Machine/Dispatch.lean: one arm per constructor of Instr; `execute(i, s)` of 40_engine.md R100.
-/

namespace Sys2Proof.Machine

def exec (i : Instr) (s : State) : Host.Outcome State Fault Refusal :=
  match i with
  | .mov rd imm => Sys2Proof.Machine.execMov rd imm s
  | .ret rs => Sys2Proof.Machine.execRet rs s
  | .add rd rs1 rs2 => Sys2Proof.Machine.execAdd rd rs1 rs2 s
  | .sub rd rs1 rs2 => Sys2Proof.Machine.execSub rd rs1 rs2 s
  | .mul rd rs1 rs2 => Sys2Proof.Machine.execMul rd rs1 rs2 s
  | .div rd rs1 rs2 => Sys2Proof.Machine.execDiv rd rs1 rs2 s
  | .str rbase off rval => Sys2Proof.Machine.execStr rbase off rval s
  | .ldr rdest rbase off => Sys2Proof.Machine.execLdr rdest rbase off s
  | .jmp off => Sys2Proof.Machine.execJmp off s
  | .jz rcond off => Sys2Proof.Machine.execJz rcond off s

end Sys2Proof.Machine
end

