-- ==== Sys2Proof/Machine/Engine.lean ====
section
/-!
DEFINITION. Machine/Engine.lean: one pass of the fetch-decode-execute loop (40_engine.md R100 to R105).
-/

namespace Sys2Proof.Machine

/-- The fetch-bounds check passes (40_engine.md R101, 10_state.md R27). -/
abbrev State.InBounds (s : State) : Prop := 0 ≤ s.pc ∧ s.pc < (s.run.n : Int)

/-- The step limit is reached (40_engine.md R102); it never is with `INF`. -/
abbrev State.LimitReached (s : State) : Prop := s.run.limit = some s.steps

/-- Decode on first visit, execute, and count the instruction if it completed (40_engine.md R103, R104). -/
def decodeAndExecute (s : State) : Answer :=
  match s.visit s.pc.toNat with
  | .error _ => raise .invalidInstruction s
  | .ok (i, s') => onNext State.countIfCompleted (exec i s')

/-- One step. The checks stand in the order of 40_engine.md R105: fetch bounds, step limit, decode, execute. It applies
only while the outcome is Running (R100, R106). -/
def engineStep (s : State) : Answer :=
  if s.outcome = .running then
    if s.InBounds then
      if s.LimitReached then raise .stepLimitExceeded s else decodeAndExecute s
    else raise .noReturn s
  else .fault .noStepEnabled

end Sys2Proof.Machine
end

