-- ==== Sys2Proof/Machine/HostPort.lean ====
section
/-!
DEFINITION. Machine/HostPort.lean: the host's side of the transaction-level interface (70_reset_and_hazards.md R230 to R234,
R245, R246; 10_state.md R34). A host move lands between two steps.
-/

namespace Sys2Proof.Machine

/-- What the host can send (70_reset_and_hazards.md R245). -/
inductive HostCmd where
  /-- places a line at an index of the program store -/
  | loadLine (k : Nat) (line : ProgLine)
  /-- writes PROG_LEN -/
  | writeProgLen (n : Nat)
  /-- writes STEP_LIMIT_EN -/
  | writeStepLimitEn (b : Bool)
  /-- writes STEP_LIMIT_VAL -/
  | writeStepLimitVal (n : Nat)
  /-- writes the read-only register OUTCOME -/
  | writeOutcome (v : BitVec 3)
  /-- writes the read-only register RETVAL -/
  | writeRetval (v : BitVec Config.regBits)
  /-- START -/
  | start
  deriving DecidableEq, Repr

/-- Run start: every piece of run state at its value of 10_state.md R37, and the program, N and STEP_LIMIT latched
(70_reset_and_hazards.md R230). RETVAL becomes undefined (R234): a free value. The program store keeps its lines, so a
START with no new load runs the old lines again: no rule says whether they outlive a run (DESIGN CHOICE, log entry 20). -/
def State.runStart (s : State) : State :=
  { s with
    pc := 0
    x := Vector.replicate Config.nreg 0
    mem := []
    outcome := .running
    steps := 0
    dec := []
    run := { lines := s.store, n := s.progLen, limit := if s.stepLimitEn then some s.stepLimitVal else none }
    retval := Config.unspecifiedRetval s.freeCount
    freeCount := s.freeCount + 1 }

/-- One host move. While OUTCOME is RUNNING, configuration writes and START are ignored (10_state.md R34,
92_eei_decisions.md D26) and the program store has no write port (70_reset_and_hazards.md R246). A write of OUTCOME or
RETVAL never has an effect (10_state.md R34). A move beyond PROG_LEN_MAX or STEP_LIMIT_BITS is refused
(93_implementation_defined.md U13, 92_eei_decisions.md D28). -/
def hostMove (c : HostCmd) (s : State) : Answer :=
  match c with
  | .loadLine k line =>
    if s.outcome = .running then .refused .storeLocked
    else if k < Config.progLenMax then .next { s with store := Table.insert k line s.store }
    else .refused .programTooLong
  | .writeProgLen n =>
    if s.outcome = .running then .next s
    else if n ≤ Config.progLenMax then .next { s with progLen := n }
    else .refused .programTooLong
  | .writeStepLimitEn b => if s.outcome = .running then .next s else .next { s with stepLimitEn := b }
  | .writeStepLimitVal n =>
    if s.outcome = .running then .next s
    else if n < 2 ^ Config.stepLimitBits then .next { s with stepLimitVal := n }
    else .refused .stepLimitTooLarge
  | .writeOutcome _ => .next s
  | .writeRetval _ => .next s
  | .start => if s.outcome = .running then .next s else .next s.runStart

/-- Several host moves, one after the other. -/
def hostMoves : List HostCmd → State → Answer
  | [], s => .next s
  | c :: cs, s =>
    match hostMove c s with
    | .next t => hostMoves cs t
    | .fault e => .fault e
    | .refused e => .refused e

/-- A read of OUTCOME (70_reset_and_hazards.md R245, R246). -/
def hostReadOutcome (s : State) : BitVec 3 := s.outcome.code

/-- A read of RETVAL: defined only while OUTCOME is RETURN, and any value otherwise, a fresh one at each read
(10_state.md R34, 93_implementation_defined.md U11). -/
def hostReadRetval (s : State) : BitVec Config.regBits × State :=
  if s.outcome = .returned then (s.retval, s)
  else (Config.unspecifiedRetval s.freeCount, { s with freeCount := s.freeCount + 1 })

/-- What the host observes of a state: the outcome kind, and the return value if the kind is Return, and nothing else
(40_engine.md R111, 60_exceptions.md R210). -/
def observe (s : State) : OutcomeCode × Option Int :=
  (s.outcome, if s.outcome = .returned then some s.retval.toInt else none)

/-- The loads of a program's lines from index `k` on. -/
def loadLines (k : Nat) : List ProgLine → List HostCmd
  | [] => []
  | line :: rest => .loadLine k line :: loadLines (k + 1) rest

/-- The host's sequence before a run: lines, PROG_LEN, step limit, START (70_reset_and_hazards.md R233). -/
def loadCommands (lines : List ProgLine) (limit : Option Nat) : List HostCmd :=
  loadLines 0 lines ++ .writeProgLen lines.length ::
    (match limit with
     | none => [.writeStepLimitEn false, .start]
     | some k => [.writeStepLimitEn true, .writeStepLimitVal k, .start])

/-- What can happen next to the whole machine: a step of the Engine or a move of the host. -/
inductive Event where
  | engine
  | host (c : HostCmd)
  deriving DecidableEq, Repr

/-- The machine together with its host. -/
def systemStep : Event → State → Answer
  | .engine, s => engineStep s
  | .host c, s => hostMove c s

end Sys2Proof.Machine
end

