-- ==== Sys2Proof/Machine/Step.lean ====
section
/-!
DEFINITION. Machine/Step.lean: the step of the machine, and the placing of one instruction where the next step fetches.
-/

namespace Sys2Proof.Machine

/-- One step of the machine (40_engine.md R100). -/
def step (s : State) : Host.Outcome State Fault Refusal := engineStep s

/-- `s` with the instruction word `w` as the line the next step runs, the host's load of a one-line change (log
entry 18): the word stands at the pc's line of the latched program, the program is long enough to hold it, that line is
not yet decoded, the run goes on, and a step limit that this step would hit is lifted. -/
def State.withFetchWord (s : State) (nbits w : Nat) : State :=
  let k := s.pc.toNat
  { s with
    pc := (k : Int)
    outcome := .running
    dec := Table.erase k s.dec
    run := {
      lines := Table.insert k (.word (tableWord nbits w)) s.run.lines
      n := max s.run.n (k + 1)
      limit := if s.run.limit = some s.steps then none else s.run.limit } }

end Sys2Proof.Machine
end

