-- ==== Sys2Proof/Safety.lean ====
section
/-!
DEFINITION. Safety.lean: the terms claims are stated in: what two states share, which registers an instruction names, the
invariant of a run, and power-on.
-/

namespace Sys2Proof.Machine

/-! ### Frames: what state `t` shares with state `s` -/

/-- Every register reads as before. -/
def SameRegs (s t : State) : Prop := ∀ r : Reg, t.reg r = s.reg r

/-- Every register but `d` reads as before. -/
def SameRegsExcept (d : Reg) (s t : State) : Prop := ∀ r : Reg, r ≠ d → t.reg r = s.reg r

/-- Every cell of data memory reads as before. -/
def SameMem (s t : State) : Prop := ∀ a : Nat, t.memRead a = s.memRead a

/-- Every cell of data memory but the one at `d` reads as before. -/
def SameMemExcept (d : Nat) (s t : State) : Prop := ∀ a : Nat, a ≠ d → t.memRead a = s.memRead a

/-- OUTCOME and RETVAL are kept. -/
def SameOutcome (s t : State) : Prop := t.outcome = s.outcome ∧ t.retval = s.retval

/-- The interface registers the host writes, the program store and the model's counter are kept. -/
def SameHost (s t : State) : Prop :=
  t.store = s.store ∧ t.progLen = s.progLen ∧ t.stepLimitEn = s.stepLimitEn ∧ t.stepLimitVal = s.stepLimitVal ∧
    t.freeCount = s.freeCount

/-- Everything but the pc, the registers, data memory, OUTCOME and RETVAL is kept. -/
def SameRest (s t : State) : Prop := t.steps = s.steps ∧ t.dec = s.dec ∧ t.run = s.run ∧ SameHost s t

/-- `t` is `s` with OUTCOME changed to `k` and nothing else changed (60_exceptions.md R209). -/
def OnlyOutcome (k : OutcomeCode) (s t : State) : Prop := t.outcome = k ∧ s = { t with outcome := s.outcome }

/-- Only RETVAL and what the host side of the interface holds may differ. -/
def SameUpToHostSide (s t : State) : Prop :=
  t.pc = s.pc ∧ t.x = s.x ∧ t.mem = s.mem ∧ t.outcome = s.outcome ∧ t.steps = s.steps ∧ t.dec = s.dec ∧ t.run = s.run

/-! ### The same state with one piece replaced -/

/-- Another data memory. -/
def State.withMem (s : State) (m : Memory) : State := { s with mem := m }

/-- Another decode cache. -/
def State.withDec (s : State) (d : List (Nat × Instr)) : State := { s with dec := d }

/-- Another value of the step counter. -/
def State.withSteps (s : State) (n : Nat) : State := { s with steps := n }

/-- Another line at index `k` of the latched program. -/
def State.withLine (s : State) (k : Nat) (line : ProgLine) : State :=
  { s with run := { s.run with lines := Table.insert k line s.run.lines } }

/-! ### The registers an instruction names (10_state.md R22) -/

/-- The registers an instruction reads. -/
def readRegs : Instr → List Reg
  | .mov _ _ => []
  | .ret rs => [rs]
  | .add _ rs1 rs2 => [rs1, rs2]
  | .sub _ rs1 rs2 => [rs1, rs2]
  | .mul _ rs1 rs2 => [rs1, rs2]
  | .div _ rs1 rs2 => [rs1, rs2]
  | .str rbase _ rval => [rbase, rval]
  | .ldr _ rbase _ => [rbase]
  | .jmp _ => []
  | .jz rcond _ => [rcond]

/-- The one register an instruction may write. -/
def destReg : Instr → Option Reg
  | .mov rd _ => some rd
  | .ret _ => none
  | .add rd _ _ => some rd
  | .sub rd _ _ => some rd
  | .mul rd _ _ => some rd
  | .div rd _ _ => some rd
  | .str _ _ _ => none
  | .ldr rdest _ _ => some rdest
  | .jmp _ => none
  | .jz _ _ => none

/-! ### What a program line must look like (30_encoding.md R63 to R69) -/

/-- An operand token is what its position asks for, and in range. -/
def OperandAccepted : OperandKind → Text → Prop
  | .reg, t => ∃ k, registerIndex t = some k ∧ 0 ≤ k ∧ k ≤ 31
  | .imm, t => ∃ v, literalValue t = some v ∧ -65535 ≤ v ∧ v ≤ 65535
  | .off, t => ∃ v, literalValue t = some v ∧ -65535 ≤ v ∧ v ≤ 65535

/-! ### The invariant of a run -/

/-- A second decode of a cached line gives what the cache holds (10_state.md R31). -/
def CacheCoherent (s : State) : Prop := ∀ k i, s.cached k = some i → decodeLine (s.fetchLine k) = .ok i

/-- What holds at run start and is kept by every step. -/
structure RunInv (s : State) : Prop where
  /-- every register holds a member of V (00_scope.md R9) -/
  regsInV : ∀ r, InV (s.reg r)
  /-- every cell holds a member of V (20_memory.md R41) -/
  cellsInV : ∀ a, InV (s.memRead a)
  /-- data memory is in canonical form -/
  memCanonical : Memory.wf s.mem
  /-- only the addresses 0..65535 name cells (20_memory.md R40) -/
  memAddresses : ∀ e ∈ s.mem, InA (e.1 : Int)
  /-- the decode cache is a map (10_state.md R31) -/
  cacheSorted : Table.Sorted s.dec
  /-- the decode cache agrees with the program text (10_state.md R31) -/
  cacheCoherent : CacheCoherent s
  /-- the pc stays in the range a hardware pc must hold (10_state.md R24) -/
  pcRange : -65535 ≤ s.pc ∧ s.pc ≤ (s.run.n : Int) - 1 + 65535
  /-- at most STEP_LIMIT instructions have completed (40_engine.md R102) -/
  stepsWithinLimit : ∀ k, s.run.limit = some k → s.steps ≤ k
  /-- a return value is a member of V (41_move_return.md R122) -/
  retvalInV : s.outcome = .returned → InV s.retval.toInt

/-- The states of 70_reset_and_hazards.md R231: OUTCOME is IDLE and STEP_LIMIT_EN is 0; everything else is unspecified, so
nothing is said of it. -/
def IsPowerOn (s : State) : Prop := s.outcome = .idle ∧ s.stepLimitEn = false

end Sys2Proof.Machine
end

