-- ==== Sys2Proof/Certificates/Slice0/Obligations.lean ====
section
/-!
DEFINITION. Certificates/Slice0/Obligations.lean: the statements for the provers, each with the rule of spec/ it formalises.
-/

open Sys2Proof Sys2Proof.Machine

/-! ### Encoding and decoding -/

/-- Some of the words and lines of 95_test_vectors.md section 2 decode as written there. -/
def Obligations.SpecWordsAndLinesDecode : Prop :=
  decodeWord 0x0081FFFD = .ok (.mov 1 (-3)) ∧
  decodeWord 0x1F800000 = .ok (.ret 31) ∧
  decodeWord 0x20880003 = .ok (.add 1 2 3) ∧
  decodeWord 0x3F80001F = .ok (.sub 31 0 31) ∧
  decodeWord 0x40840001 = .ok (.mul 1 1 1) ∧
  decodeWord 0x50880000 = .ok (.div 1 2 0) ∧
  decodeWord 0x60890001 = .ok (.str 1 (-65535) 2) ∧
  decodeWord 0x740CFFFF = .ok (.ldr 8 3 65535) ∧
  decodeWord 0x80010001 = .ok (.jmp (-65535)) ∧
  decodeWord 0x9381FFFE = .ok (.jz 7 (-2)) ∧
  decodeText "MOV R1 -3".toList = .ok (.mov 1 (-3)) ∧
  decodeText "RET R31".toList = .ok (.ret 31) ∧
  decodeText "ADD R1 R2 R3".toList = .ok (.add 1 2 3) ∧
  decodeText "SUB R31 R0 R31".toList = .ok (.sub 31 0 31) ∧
  decodeText "MUL R1 R1 R1".toList = .ok (.mul 1 1 1) ∧
  decodeText "DIV R1 R2 R0".toList = .ok (.div 1 2 0) ∧
  decodeText "STR R1 -65535 R2".toList = .ok (.str 1 (-65535) 2) ∧
  decodeText "LDR R8 R3 65535".toList = .ok (.ldr 8 3 65535) ∧
  decodeText "JMP -65535".toList = .ok (.jmp (-65535)) ∧
  decodeText "JZ R7 -2".toList = .ok (.jz 7 (-2))

/-- 30_encoding.md R82, row by row: the word of an instruction has its row's match under its row's mask, and the row's field
mapping puts each operand in its field.
The word form is the spec's own decision D10. -/
def Obligations.EncodedWordFollowsItsTableRow : Prop :=
  (∀ rd imm, encode (.mov rd imm) &&& 0xF07E0000 = 0x00000000 ∧
    (encode (.mov rd imm)).extractLsb' 23 5 = BitVec.ofFin rd ∧
    (encode (.mov rd imm)).extractLsb' 0 17 = BitVec.ofInt 17 imm) ∧
  (∀ rs, encode (.ret rs) &&& 0xF07FFFFF = 0x10000000 ∧
    (encode (.ret rs)).extractLsb' 23 5 = BitVec.ofFin rs) ∧
  (∀ rd rs1 rs2,
    encode (.add rd rs1 rs2) &&& 0xF003FFE0 = 0x20000000 ∧ encode (.sub rd rs1 rs2) &&& 0xF003FFE0 = 0x30000000 ∧
    encode (.mul rd rs1 rs2) &&& 0xF003FFE0 = 0x40000000 ∧ encode (.div rd rs1 rs2) &&& 0xF003FFE0 = 0x50000000 ∧
    ∀ i ∈ [Instr.add rd rs1 rs2, .sub rd rs1 rs2, .mul rd rs1 rs2, .div rd rs1 rs2],
      (encode i).extractLsb' 23 5 = BitVec.ofFin rd ∧ (encode i).extractLsb' 18 5 = BitVec.ofFin rs1 ∧
      (encode i).extractLsb' 0 5 = BitVec.ofFin rs2) ∧
  (∀ rbase off rval, encode (.str rbase off rval) &&& 0xF0020000 = 0x60000000 ∧
    (encode (.str rbase off rval)).extractLsb' 23 5 = BitVec.ofFin rbase ∧
    (encode (.str rbase off rval)).extractLsb' 18 5 = BitVec.ofFin rval ∧
    (encode (.str rbase off rval)).extractLsb' 0 17 = BitVec.ofInt 17 off) ∧
  (∀ rdest rbase off, encode (.ldr rdest rbase off) &&& 0xF0020000 = 0x70000000 ∧
    (encode (.ldr rdest rbase off)).extractLsb' 23 5 = BitVec.ofFin rdest ∧
    (encode (.ldr rdest rbase off)).extractLsb' 18 5 = BitVec.ofFin rbase ∧
    (encode (.ldr rdest rbase off)).extractLsb' 0 17 = BitVec.ofInt 17 off) ∧
  (∀ off, encode (.jmp off) &&& 0xFFFE0000 = 0x80000000 ∧
    (encode (.jmp off)).extractLsb' 0 17 = BitVec.ofInt 17 off) ∧
  (∀ rcond off, encode (.jz rcond off) &&& 0xF07E0000 = 0x90000000 ∧
    (encode (.jz rcond off)).extractLsb' 23 5 = BitVec.ofFin rcond ∧
    (encode (.jz rcond off)).extractLsb' 0 17 = BitVec.ofInt 17 off)

/-- 30_encoding.md section 3: decoding the word of any well-formed instruction gives the instruction back. -/
def Obligations.WordDecodeInvertsEncode : Prop := ∀ i : Instr, i.WellFormed → decodeWord (encode i) = .ok i

/-- 30_encoding.md section 3: a valid word is the word of the instruction it decodes to, which is well-formed. -/
def Obligations.WordEncodeInvertsDecode : Prop :=
  ∀ w i, decodeWord w = .ok i → encode i = w ∧ i.WellFormed

/-- 30_encoding.md R83: a word is valid exactly when one row matches it and its immediate is not -65536; the reserved opcode
numbers 10 to 15 match no row; the decoder of text produces only valid words; and an invalid word in the program store
is treated as a line that fails to decode.
What an invalid word does is the spec's own decision D29. -/
def Obligations.WordIsValidExactlyWhenOneRowMatches : Prop :=
  (∀ w : InstrWord, (∃ i, decodeWord w = .ok i) ↔
    ((opRows.filter (fun row => w &&& row.mask = row.pat)).length = 1 ∧
     ∀ row ∈ opRows, w &&& row.mask = row.pat → row.format = .ri ∨ row.format = .rri ∨ row.format = .i →
       w.extractLsb' 0 17 ≠ 0x10000)) ∧
  (∀ w : InstrWord, 10 ≤ (w.extractLsb' 28 4).toNat → ∀ row ∈ opRows, w &&& row.mask ≠ row.pat) ∧
  (∀ line i, decodeText line = .ok i → decodeWord (encode i) = .ok i) ∧
  (∀ s w, s.outcome = .running → s.InBounds → ¬ s.LimitReached → s.cached s.pc.toNat = none →
    s.fetchLine s.pc.toNat = .word w → (∀ i, decodeWord w ≠ .ok i) →
    ∃ t, step s = .next t ∧ OnlyOutcome .invalidInstruction s t)

/-- 30_encoding.md section 3: no word matches two rows of the table. -/
def Obligations.NoWordMatchesTwoRows : Prop :=
  opRows.Pairwise (fun a b => ∀ w : InstrWord, ¬ (w &&& a.mask = a.pat ∧ w &&& b.mask = b.pat))

/-- 30_encoding.md section 1: the plain line of any well-formed instruction decodes to the instruction. -/
def Obligations.TextDecodeInvertsEncode : Prop := ∀ i : Instr, i.WellFormed → decodeText (encodeText i) = .ok i

/-- 30_encoding.md section 2: what the decoder of text accepts is well-formed and its opcode is the line's first token. -/
def Obligations.DecodedLineIsWellFormed : Prop :=
  ∀ line i, decodeText line = .ok i → i.WellFormed ∧ (tokens line).head? = some i.opcode.mnemonic

/-- 30_encoding.md R61: the six whitespace characters separate tokens, a run without whitespace is one token, and a line
with no token fails to decode. These clauses determine the tokens of every line.
The rule is the spec's own decision D4 and D8. -/
def Obligations.TokensAreMaximalRuns : Prop :=
  (∀ c : Char, isSpace c = true ↔ c.toNat ∈ [0x20, 0x09, 0x0A, 0x0B, 0x0C, 0x0D]) ∧
  tokens [] = [] ∧
  (∀ a c b, isSpace c = true → tokens (a ++ c :: b) = tokens a ++ tokens b) ∧
  (∀ a : Text, a ≠ [] → (∀ c ∈ a, isSpace c = false) → tokens a = [a]) ∧
  (∀ a : Text, (∀ c ∈ a, isSpace c = true) → ∀ i, decodeText a ≠ .ok i)

/-- 30_encoding.md R63: an integer literal is an optional sign and one or more decimal digits, of any length, with the exact
decimal value; the range is checked on the value.
The rule is the spec's own decision D5. -/
def Obligations.LiteralsAreSignedDecimal : Prop :=
  (∀ t v, literalValue t = some v ↔
    ∃ ds : Text, ds ≠ [] ∧ (∀ c ∈ ds, '0' ≤ c ∧ c ≤ '9') ∧
      ((t = ds ∧ v = (ds.foldl (fun a c => 10 * a + (c.toNat - 48)) 0 : Nat)) ∨
       (t = '+' :: ds ∧ v = (ds.foldl (fun a c => 10 * a + (c.toNat - 48)) 0 : Nat)) ∨
       (t = '-' :: ds ∧ v = -((ds.foldl (fun a c => 10 * a + (c.toNat - 48)) 0 : Nat) : Int)))) ∧
  (∀ t v, literalValue t = some v → ∀ kind ∈ [OperandKind.imm, .off],
    decodeOperand kind t = if -65535 ≤ v ∧ v ≤ 65535 then .ok (.num v) else .error .numberOutOfRange)

/-- 30_encoding.md section 1 (R67, R68, R69): a line decodes exactly when its first token is a mnemonic and its operands are, one for
one, what that mnemonic's form asks for: any other count, kind or range fails, whether or not execution would use
the operand.
The kind and range clauses are the spec's own inferences R68 and R69. -/
def Obligations.LineDecodesExactlyWhenEveryOperandPasses : Prop :=
  ∀ line, (∃ i, decodeText line = .ok i) ↔
    ∃ (op : Opcode) (ops : List Text), tokens line = op.mnemonic :: ops ∧ List.Forall₂ OperandAccepted op.form ops

/-! ### The ten instructions: result, completion and frame -/

/-- 41_move_return.md R121 and 10_state.md R21: MOV writes its immediate to its register, R0 like any other, and
completes in every state. -/
def Obligations.MovWritesItsImmediate : Prop :=
  ∀ rd imm s, ∃ t, exec (.mov rd imm) s = .next t ∧ t.reg rd = imm ∧ t.pc = s.pc + 1 ∧
    SameRegsExcept rd s t ∧ SameMem s t ∧ SameOutcome s t ∧ SameRest s t

/-- 41_move_return.md R122: RET always completes, ends the run with the value of its register, which the host then reads
as RETVAL, and changes nothing else; no later step is enabled. -/
def Obligations.RetHaltsWithItsRegister : Prop :=
  ∀ rs s, ∃ t, exec (.ret rs) s = .next t ∧ t.outcome = .returned ∧ t.pc = s.pc ∧
    (InV (s.reg rs) → observe t = (.returned, some (s.reg rs)) ∧ (hostReadRetval t).1.toInt = s.reg rs) ∧
    SameRegs s t ∧ SameMem s t ∧ SameRest s t ∧ (∀ u, step t ≠ .next u)

/-- 42_arithmetic.md R130, R133, R134, R135: ADD, SUB and MUL compute the exact result; in V it is written, outside V
the instruction raises ARITHMETIC_OVERFLOW, which changes OUTCOME and nothing else.
The overflow outcome is the spec's own decision D11. -/
def Obligations.AddSubMulWriteTheExactResultOrOverflow : Prop :=
  ∀ op ∈ [(Instr.add, fun a b : Int => a + b), (Instr.sub, fun a b => a - b), (Instr.mul, fun a b => a * b)],
    ∀ rd rs1 rs2 s,
      (InV (op.2 (s.reg rs1) (s.reg rs2)) → ∃ t, exec (op.1 rd rs1 rs2) s = .next t ∧
        t.reg rd = op.2 (s.reg rs1) (s.reg rs2) ∧ t.pc = s.pc + 1 ∧
        SameRegsExcept rd s t ∧ SameMem s t ∧ SameOutcome s t ∧ SameRest s t) ∧
      (¬ InV (op.2 (s.reg rs1) (s.reg rs2)) → ∃ t, exec (op.1 rd rs1 rs2) s = .next t ∧
        OnlyOutcome .arithmeticOverflow s t)

/-- 42_arithmetic.md section 1: with a non-zero divisor DIV writes the quotient truncated toward zero and completes; it never
overflows.
The rounding (R132) is the spec's own decision D12; that the quotient never leaves V is the spec's own inference in R131 and
R137. -/
def Obligations.DivWritesTheTruncatedQuotient : Prop :=
  ∀ rd rs1 rs2 s, s.reg rs2 ≠ 0 → ∃ t, exec (.div rd rs1 rs2) s = .next t ∧
    (t.reg rd).natAbs = (s.reg rs1).natAbs / (s.reg rs2).natAbs ∧
    (t.reg rd < 0 ↔ ((s.reg rs1 < 0 ∧ 0 < s.reg rs2) ∨ (0 < s.reg rs1 ∧ s.reg rs2 < 0)) ∧
      (s.reg rs2).natAbs ≤ (s.reg rs1).natAbs) ∧
    (InV (s.reg rs1) → InV (t.reg rd)) ∧ t.pc = s.pc + 1 ∧
    SameRegsExcept rd s t ∧ SameMem s t ∧ SameOutcome s t ∧ SameRest s t

/-- 42_arithmetic.md R136: a zero divisor raises DIVISION_BY_ZERO, for every dividend, and nothing but OUTCOME changes.
The outcome is the spec's own decision D13. -/
def Obligations.DivByZeroRaises : Prop :=
  ∀ rd rs1 rs2 s, s.reg rs2 = 0 → ∃ t, exec (.div rd rs1 rs2) s = .next t ∧ OnlyOutcome .divisionByZero s t

/-- 43_load_store.md R150, 20_memory.md R47: STR stores at the exact address base plus offset when that is in 0..65535, and
stores nothing otherwise; it completes in every state and writes no register. -/
def Obligations.StrStoresInRangeOrDoesNothing : Prop :=
  ∀ rbase off rval s, ∃ t, exec (.str rbase off rval) s = .next t ∧ t.pc = s.pc + 1 ∧
    (∀ a : Nat, s.effAddr rbase off = (a : Int) → a ≤ 65535 → t.memRead a = s.reg rval ∧ SameMemExcept a s t) ∧
    ((s.effAddr rbase off < 0 ∨ 65535 < s.effAddr rbase off) → SameMem s t) ∧
    s.effAddr rbase off = s.reg rbase + off ∧
    SameRegs s t ∧ SameOutcome s t ∧ SameRest s t

/-- 43_load_store.md R152: LDR loads the cell at the exact address base plus offset when that is in 0..65535, and keeps its
register otherwise; it completes in every state and writes no memory. -/
def Obligations.LdrLoadsInRangeOrKeepsItsRegister : Prop :=
  ∀ rdest rbase off s, ∃ t, exec (.ldr rdest rbase off) s = .next t ∧ t.pc = s.pc + 1 ∧
    (∀ a : Nat, s.reg rbase + off = (a : Int) → a ≤ 65535 → t.reg rdest = s.memRead a ∧ SameRegsExcept rdest s t) ∧
    ((s.reg rbase + off < 0 ∨ 65535 < s.reg rbase + off) → SameRegs s t) ∧
    SameMem s t ∧ SameOutcome s t ∧ SameRest s t

/-- 44_branch.md R171: JMP goes to the current index plus its offset, whatever that is, and changes nothing else. -/
def Obligations.JmpAddsItsOffset : Prop :=
  ∀ off s, ∃ t, exec (.jmp off) s = .next t ∧ t.pc = s.pc + off ∧
    SameRegs s t ∧ SameMem s t ∧ SameOutcome s t ∧ SameRest s t

/-- 44_branch.md R172: JZ branches exactly when its register equals 0 and otherwise goes to the next line; nothing else
changes. -/
def Obligations.JzBranchesExactlyOnZero : Prop :=
  ∀ rcond off s, ∃ t, exec (.jz rcond off) s = .next t ∧
    (s.reg rcond = 0 → t.pc = s.pc + off) ∧ (s.reg rcond ≠ 0 → t.pc = s.pc + 1) ∧
    SameRegs s t ∧ SameMem s t ∧ SameOutcome s t ∧ SameRest s t

/-! ### Properties of the whole instruction set -/

/-- 10_state.md section 1 (R22): the register file is written by MOV, ADD, SUB, MUL, DIV and LDR only, each its one destination; and no
instruction reads a register it does not name: changing such a register changes no other register, no cell, not the pc
and not the outcome. An instruction that raises writes none, nor does an LDR out of range.
The table of registers read and written is the spec's own inference from the opcode table. -/
def Obligations.InstructionsTouchOnlyNamedRegisters : Prop :=
  (∀ i s t r, exec i s = .next t → t.reg r ≠ s.reg r → destReg i = some r) ∧
  (∀ i s t r v, r ∉ readRegs i → exec i s = .next t → ∃ u, exec i (s.setReg r v) = .next u ∧
    u.pc = t.pc ∧ SameOutcome t u ∧ SameMem t u ∧ SameRegsExcept r t u ∧
    (u.reg r = v ∨ (destReg i = some r ∧ u.reg r = t.reg r))) ∧
  (∀ i s t, s.outcome = .running → exec i s = .next t → t.outcome.isFailure = true → SameRegs s t) ∧
  (∀ rdest rbase off s t, exec (.ldr rdest rbase off) s = .next t → ¬ InA (s.reg rbase + off) → SameRegs s t)

/-- 20_memory.md R43: data memory is changed only by STR at an address in range, and no instruction but LDR, and no other
part of the loop, reads it: a step that does not run an LDR gives the same, memory aside, whatever memory holds. -/
def Obligations.OnlyStrWritesAndOnlyLdrReadsMemory : Prop :=
  (∀ i s t (a : Nat), exec i s = .next t → t.memRead a ≠ s.memRead a →
    ∃ rbase off rval, i = .str rbase off rval ∧ s.reg rbase + off = (a : Int) ∧ a ≤ 65535) ∧
  (∀ i s t m, i.opcode ≠ .ldr → exec i s = .next t → ∃ u, exec i (s.withMem m) = .next u ∧
    u.withMem t.mem = t) ∧
  (∀ (s : State) m k, (s.withMem m).fetchLine k = s.fetchLine k ∧ (s.withMem m).cached k = s.cached k) ∧
  (∀ s t (a : Nat), step s = .next t → t.memRead a ≠ s.memRead a → ∃ i : Instr, i.opcode = .str ∧
    (s.cached s.pc.toNat = some i ∨ decodeLine (s.fetchLine s.pc.toNat) = .ok i)) ∧
  (∀ s t m, (¬ s.InBounds ∨ s.LimitReached ∨ ∀ i : Instr, (s.cached s.pc.toNat = some i ∨
      s.cached s.pc.toNat = none ∧ decodeLine (s.fetchLine s.pc.toNat) = .ok i) → i.opcode ≠ .ldr) →
    step s = .next t → ∃ u, step (s.withMem m) = .next u ∧ u.withMem t.mem = t)

/-- 10_state.md section 2 (R26): the next pc of each instruction that completes; RET and an instruction that raises set none.
That an instruction that raises sets no pc is the spec's inference from 00_scope.md R11. -/
def Obligations.NextPcFollowsTheTable : Prop :=
  ∀ i s t, exec i s = .next t →
    (t.outcome = s.outcome → s.outcome = .running → t.pc =
      match i with
      | .jmp off => s.pc + off
      | .jz rcond off => if s.reg rcond = 0 then s.pc + off else s.pc + 1
      | _ => s.pc + 1) ∧
    (s.outcome = .running → t.outcome ≠ .running → t.pc = s.pc) ∧
    (i.opcode = .ret → t.outcome = .returned)

/-- 60_exceptions.md R205, R206: which instruction raises what, and when: only DIV raises DIVISION_BY_ZERO, only ADD, SUB
and MUL raise ARITHMETIC_OVERFLOW; the others raise nothing, and no value is recorded.
The two outcomes are the spec's own decisions D11 and D13. -/
def Obligations.OnlyArithmeticRaises : Prop :=
  ∀ i s t, s.outcome = .running → exec i s = .next t →
    (t.outcome = .divisionByZero ↔ ∃ rd rs1 rs2, i = .div rd rs1 rs2 ∧ s.reg rs2 = 0) ∧
    (t.outcome = .arithmeticOverflow ↔ ∃ rd rs1 rs2,
      (i = .add rd rs1 rs2 ∧ ¬ InV (s.reg rs1 + s.reg rs2)) ∨ (i = .sub rd rs1 rs2 ∧ ¬ InV (s.reg rs1 - s.reg rs2)) ∨
      (i = .mul rd rs1 rs2 ∧ ¬ InV (s.reg rs1 * s.reg rs2))) ∧
    (t.outcome = .returned ↔ i.opcode = .ret) ∧
    (t.outcome.isFailure = true → t.outcome = .divisionByZero ∨ t.outcome = .arithmeticOverflow) ∧
    (t.outcome.isFailure = true → t.retval = s.retval)

/-- 40_engine.md R108: operands are read before anything is written, so a source that is also the destination gives its old
value.
The rule is the spec's own decision D27. -/
def Obligations.OperandsAreReadBeforeTheWrite : Prop :=
  (∀ op ∈ [(Instr.add, fun a b : Int => a + b), (Instr.sub, fun a b => a - b), (Instr.mul, fun a b => a * b)],
    ∀ r q s t,
      (exec (op.1 r r q) s = .next t → InV (op.2 (s.reg r) (s.reg q)) → t.reg r = op.2 (s.reg r) (s.reg q)) ∧
      (exec (op.1 r q r) s = .next t → InV (op.2 (s.reg q) (s.reg r)) → t.reg r = op.2 (s.reg q) (s.reg r))) ∧
  (∀ r q s t, exec (.div r r q) s = .next t → s.reg q ≠ 0 → t.reg r = quot (s.reg r) (s.reg q)) ∧
  (∀ r q s t, exec (.div r q r) s = .next t → s.reg r ≠ 0 → t.reg r = quot (s.reg q) (s.reg r)) ∧
  (∀ r off s t (a : Nat), exec (.ldr r r off) s = .next t → s.reg r + off = (a : Int) → a ≤ 65535 →
    t.reg r = s.memRead a) ∧
  (∀ r off s t (a : Nat), exec (.str r off r) s = .next t → s.reg r + off = (a : Int) → a ≤ 65535 →
    t.memRead a = s.reg r)

/-- 20_memory.md section 6: a load returns the value of the latest store to its address, however the two instructions
spell the address, as long as memory is not changed in between. -/
def Obligations.LoadReturnsTheLatestStore : Prop :=
  ∀ rbase off rval s, InA (s.reg rbase + off) → ∃ t, exec (.str rbase off rval) s = .next t ∧
    ∀ u rdest rbase' off', SameMem t u → u.reg rbase' + off' = s.reg rbase + off →
      ∃ w, exec (.ldr rdest rbase' off') u = .next w ∧ w.reg rdest = s.reg rval

/-! ### The engine -/

/-- 40_engine.md section 1: when the checks pass and the line at the pc decodes to `i`, the step is `i` at that state with the
decode cached, and it counts the instruction if it completes; a cached line is run from the cache. -/
def Obligations.StepRunsTheDecodedInstruction : Prop :=
  ∀ s i, s.outcome = .running → s.InBounds → ¬ s.LimitReached →
    (s.cached s.pc.toNat = none → decodeLine (s.fetchLine s.pc.toNat) = .ok i →
      step s = onNext State.countIfCompleted (exec i (s.cacheInstr s.pc.toNat i))) ∧
    (s.cached s.pc.toNat = some i → step s = onNext State.countIfCompleted (exec i s))

/-- 40_engine.md R101: a running step whose pc is outside 0..N-1 writes nothing except OUTCOME, which becomes NO_RETURN, by
either end and whatever set the pc. -/
def Obligations.PcOutOfBoundsEndsWithNoReturn : Prop :=
  ∀ s, s.outcome = .running → (s.pc < 0 ∨ (s.run.n : Int) ≤ s.pc) → ∃ t, step s = .next t ∧ OnlyOutcome .noReturn s t

/-- 40_engine.md R102: a running step in bounds whose step counter equals STEP_LIMIT writes nothing except OUTCOME; with INF
the check never fires; and no step takes the counter past the limit.
How the limit counts and where the check stands are the spec's own decisions D18 and D19. -/
def Obligations.StepLimitEndsTheRun : Prop :=
  (∀ s, s.outcome = .running → s.InBounds → s.run.limit = some s.steps →
    ∃ t, step s = .next t ∧ OnlyOutcome .stepLimitExceeded s t) ∧
  (∀ s t, s.run.limit = none → step s = .next t → t.outcome ≠ .stepLimitExceeded) ∧
  (∀ s t k, s.run.limit = some k → s.steps ≤ k → step s = .next t → t.steps ≤ k)

/-- 40_engine.md section 1 (R103): a line is decoded when the loop first reaches its index and not before; a decode failure writes nothing
except OUTCOME; a line no step reaches does not affect the step.
That an unreached line has no effect is the spec's own inference from the rule. -/
def Obligations.LinesAreDecodedOnFirstVisit : Prop :=
  (∀ s e, s.outcome = .running → s.InBounds → ¬ s.LimitReached → s.cached s.pc.toNat = none →
    decodeLine (s.fetchLine s.pc.toNat) = .error e → ∃ t, step s = .next t ∧ OnlyOutcome .invalidInstruction s t) ∧
  (∀ s t (k : Nat), step s = .next t → t.cached k ≠ s.cached k → (k : Int) = s.pc ∧ s.cached k = none ∧
    ∃ i, decodeLine (s.fetchLine k) = .ok i ∧ t.cached k = some i) ∧
  (∀ s t (k : Nat) line, step s = .next t → (k : Int) ≠ s.pc →
    step (s.withLine k line) = .next (t.withLine k line))

/-- 40_engine.md R105: the first check that fails decides the outcome: fetch bounds, then step limit, then decode, then
execute.
The place of the step-limit check is the spec's own decision D19. -/
def Obligations.FirstFailingCheckDecides : Prop :=
  ∀ s t, s.outcome = .running → step s = .next t →
    (¬ s.InBounds → t.outcome = .noReturn) ∧
    (s.InBounds → s.LimitReached → t.outcome = .stepLimitExceeded) ∧
    (s.InBounds → ¬ s.LimitReached → s.cached s.pc.toNat = none → (∀ i, decodeLine (s.fetchLine s.pc.toNat) ≠ .ok i) →
      t.outcome = .invalidInstruction) ∧
    (s.InBounds → ¬ s.LimitReached →
      (s.cached s.pc.toNat ≠ none ∨ ∃ i, decodeLine (s.fetchLine s.pc.toNat) = .ok i) →
      t.outcome ∈ [.running, .returned, .divisionByZero, .arithmeticOverflow])

/-- 40_engine.md R106: every outcome but Running is terminal (IDLE is no outcome), and no step is enabled in a terminal
state, nor in an IDLE one. -/
def Obligations.TerminalStatesHaveNoNextState : Prop :=
  (∀ o : OutcomeCode, o.isTerminal = true ↔ o ≠ .running ∧ o ≠ .idle) ∧
  (∀ s t, s.outcome ≠ .running → step s ≠ .next t)

/-- 60_exceptions.md section 2, 40_engine.md section 2: raising an outcome sets OUTCOME and nothing else; registers, memory,
pc and steps keep the values they had before the failing step. That the decode cache may have gained the failing line before
its execute part raised is the model's own reading (log entry 7), no rule of the spec.
The rule is the spec's own decision D22. -/
def Obligations.FailuresArePrecise : Prop :=
  (∀ i s t, s.outcome = .running → exec i s = .next t → t.outcome.isFailure = true → OnlyOutcome t.outcome s t) ∧
  (∀ s t, step s = .next t → t.outcome.isFailure = true →
    SameRegs s t ∧ SameMem s t ∧ t.pc = s.pc ∧ t.steps = s.steps ∧ t.retval = s.retval ∧ t.run = s.run ∧ SameHost s t ∧
    (t.dec = s.dec ∨ ∃ i, decodeLine (s.fetchLine s.pc.toNat) = .ok i ∧ t.dec = (s.cacheInstr s.pc.toNat i).dec))

/-- 10_state.md R30: the step counter counts the instructions that complete, RET included, and no others; no instruction
reads or writes it, the host does not see it, and a step depends on it only through the step-limit check: two counters that
both pass the check, with a finite limit or with INF, step alike; it is 0 at run start.
What is counted is the spec's own decision D18. -/
def Obligations.StepCounterCountsCompletedInstructions : Prop :=
  (∀ s t, step s = .next t → (t.outcome = .running ∨ t.outcome = .returned → t.steps = s.steps + 1) ∧
    (t.outcome.isFailure = true → t.steps = s.steps)) ∧
  (∀ i s t n, exec i s = .next t → t.steps = s.steps ∧ exec i (s.withSteps n) = .next (t.withSteps n)) ∧
  (∀ (s : State) n, observe (s.withSteps n) = observe s ∧ hostReadOutcome (s.withSteps n) = hostReadOutcome s ∧
    (hostReadRetval (s.withSteps n)).1 = (hostReadRetval s).1) ∧
  (∀ s t n, s.run.limit ≠ some s.steps → s.run.limit ≠ some n → step s = .next t → ∃ u, step (s.withSteps n) = .next u ∧ u.withSteps t.steps = t) ∧
  (∀ s : State, s.runStart.steps = 0)

/-- 40_engine.md section 1: while the run goes on there is always a next state, and it either goes on with one more
instruction completed or is terminal. -/
def Obligations.RunningStepMakesProgress : Prop :=
  ∀ s, s.outcome = .running → ∃ t, step s = .next t ∧
    ((t.outcome = .running ∧ t.steps = s.steps + 1) ∨ t.outcome.isTerminal = true)

/-- 40_engine.md section 1 (the step limit): with a finite limit every run ends, within one step more than the instructions
still allowed, and completes at most as many instructions as the limit. -/
def Obligations.RunWithStepLimitEnds : Prop :=
  ∀ s k, s.outcome = .running → s.run.limit = some k → s.steps ≤ k →
    ∃ m t, m ≤ k - s.steps + 1 ∧ Host.Core.run Sys2Proof.core m s = .next t ∧ t.outcome.isTerminal = true ∧ t.steps ≤ k

/-- 20_memory.md R56: a store is never seen by a later fetch: no step changes the program store or the latched program, and
what is fetched does not depend on data memory.
The spec's own inference from R43 and R50. That the step which ends a run keeps the program store as well is the model's
choice (log entry 20). -/
def Obligations.StoresAreNeverFetched : Prop :=
  (∀ s t, step s = .next t → t.run = s.run ∧ t.store = s.store ∧ ∀ k, t.fetchLine k = s.fetchLine k) ∧
  (∀ (s : State) a v k, (s.memWrite a v).fetchLine k = s.fetchLine k ∧ (s.memWrite a v).cached k = s.cached k)

/-- 10_state.md R31: the decode cache is empty at run start, a second decode always gives what it holds, and it cannot be
observed: from a state whose cache agrees with the program, a run of any length gives the same as the run that starts with
the cache dropped, but for the cache.
The spec's own inference from 30_encoding.md R75 and 20_memory.md R50. -/
def Obligations.DecodeCacheIsUnobservable : Prop :=
  (∀ (s : State) k, s.runStart.cached k = none) ∧
  (∀ s t, CacheCoherent s → step s = .next t → CacheCoherent t) ∧
  (∀ n s, CacheCoherent s →
    onNext (fun t => t.withDec []) (Host.Core.run Sys2Proof.core n s) =
      onNext (fun t => t.withDec []) (Host.Core.run Sys2Proof.core n (s.withDec [])))

/-! ### The invariant of a run -/

/-- The machine at reset satisfies the invariant. (It rests on no chosen reset value: RETVAL is read only in a state that has
returned.) -/
def Obligations.ResetSatisfiesTheRunInvariant : Prop := RunInv State.reset

/-- 00_scope.md section 3, 20_memory.md section 1, 10_state.md section 5: every step keeps the invariant: registers, cells and
a return value in V, memory canonical with addresses 0..65535 only, the cache coherent with the program, the pc in its
range, the step counter within the limit. -/
def Obligations.StepKeepsTheRunInvariant : Prop := ∀ s t, RunInv s → step s = .next t → RunInv t

/-- 70_reset_and_hazards.md section 1: START, in any state that is not running, whatever it holds, gives a state that satisfies
the invariant; every other host move keeps the invariant. -/
def Obligations.HostMovesKeepTheRunInvariant : Prop :=
  (∀ s t, s.outcome ≠ .running → hostMove .start s = .next t → RunInv t) ∧
  (∀ c s t, RunInv s → hostMove c s = .next t → RunInv t)

/-! ### Run start and the host interface -/

/-- 70_reset_and_hazards.md section 1 (R230): START in a state that is not running sets every piece of run state to its run-start value and
latches the program store, PROG_LEN and the step limit.
The zero fill of memory and the interface are the spec's own decisions D14 and D2. That START keeps the program store (the
clause on `store`) is the model's choice (log entry 20), no rule of the spec. -/
def Obligations.StartSetsTheRunState : Prop :=
  ∀ s, s.outcome ≠ .running → ∃ t, hostMove .start s = .next t ∧
    (∀ r, t.reg r = 0) ∧ t.pc = 0 ∧ (∀ a, t.memRead a = 0) ∧ t.steps = 0 ∧ (∀ k, t.cached k = none) ∧
    t.outcome = .running ∧ hostReadOutcome t = 1 ∧
    t.run.lines = s.store ∧ t.run.n = s.progLen ∧
    t.run.limit = (if s.stepLimitEn = true then some s.stepLimitVal else none) ∧
    t.store = s.store ∧ t.progLen = s.progLen ∧ t.stepLimitEn = s.stepLimitEn ∧ t.stepLimitVal = s.stepLimitVal

/-- 70_reset_and_hazards.md section 1: at power-on OUTCOME reads 0, and nothing that power-on leaves unspecified survives
START: two power-on states with the same program store, once the host has written PROG_LEN, start the same run, but for
RETVAL and the host's side. -/
def Obligations.PowerOnValuesCannotBeObserved : Prop :=
  ∀ s s' n, IsPowerOn s → IsPowerOn s' → s'.store = s.store → n ≤ Config.progLenMax →
    hostReadOutcome s = 0 ∧
    ∃ t t', hostMoves [.writeProgLen n, .start] s = .next t ∧ hostMoves [.writeProgLen n, .start] s' = .next t' ∧
      t.run.limit = none ∧ SameUpToHostSide t t'

/-- 40_engine.md section 2, 70_reset_and_hazards.md section 1: what the host observes after any number of steps depends only on
the program, N and the step limit: two runs started with the same configuration, from whatever states, go the same
way. Every line below PROG_LEN is placed, so nothing rests on the free value of a line the host never placed (log
entry 5). -/
def Obligations.RunsDependOnlyOnProgramAndLimit : Prop :=
  ∀ s s' : State, s'.store = s.store → s'.progLen = s.progLen → s'.stepLimitEn = s.stepLimitEn →
    (s.stepLimitEn = true → s'.stepLimitVal = s.stepLimitVal) →
    (∀ k, k < s.progLen → ∃ line, Table.find k s.store = some line) →
    ∀ n t, Host.Core.run Sys2Proof.core n s.runStart = .next t →
      ∃ t', Host.Core.run Sys2Proof.core n s'.runStart = .next t' ∧ observe t' = observe t ∧ SameUpToHostSide t t'

/-- 10_state.md section 7, 70_reset_and_hazards.md section 4: while a run goes on the host changes nothing: configuration writes
and START are ignored; and a write of OUTCOME or RETVAL never has an effect. When no run goes on, every host move but START
keeps OUTCOME, RETVAL and the run state. That a load of a line during a run has no next state is the model's form of the
spec's words that a model gives the host no such move (log entry 10). -/
def Obligations.HostCannotDisturbARun : Prop :=
  (∀ c s t, s.outcome = .running → hostMove c s = .next t → t = s) ∧
  (∀ n b s, s.outcome = .running → hostMove (.writeProgLen n) s = .next s ∧ hostMove (.writeStepLimitEn b) s = .next s ∧
    hostMove (.writeStepLimitVal n) s = .next s ∧ hostMove .start s = .next s) ∧
  (∀ s v w, hostMove (.writeOutcome v) s = .next s ∧ hostMove (.writeRetval w) s = .next s) ∧
  (∀ k line s t, s.outcome = .running → hostMove (.loadLine k line) s ≠ .next t) ∧
  (∀ c s t, s.outcome ≠ .running → c ≠ .start → hostMove c s = .next t →
    SameOutcome s t ∧ SameRegs s t ∧ SameMem s t ∧ t.pc = s.pc ∧ t.steps = s.steps ∧ t.dec = s.dec ∧ t.run = s.run)

/-- 70_reset_and_hazards.md R233: the host's sequence of loads, configuration writes and START, in any state that is not
running, starts a run of exactly that program under that limit. -/
def Obligations.LoadSequenceStartsTheProgram : Prop :=
  ∀ lines limit s, s.outcome ≠ .running → lines.length ≤ Config.progLenMax →
    (∀ k, limit = some k → k < 2 ^ Config.stepLimitBits) →
    ∃ t, hostMoves (loadCommands lines limit) s = .next t ∧ t.outcome = .running ∧ t.pc = 0 ∧
      t.run.n = lines.length ∧ t.run.limit = limit ∧
      (∀ k (h : k < lines.length), t.fetchLine k = lines[k]) ∧
      (∀ r, t.reg r = 0) ∧ (∀ a, t.memRead a = 0) ∧ t.steps = 0 ∧ (∀ k, t.cached k = none)

/-- 60_exceptions.md R210: the host receives the outcome kind and, exactly when the kind is Return, the value RETVAL holds,
and nothing more: what it receives does not depend on anything but OUTCOME and RETVAL. The register OUTCOME shows the code
of the kind, and every kind has its own.
What the host receives is the spec's own decision D21; the codes (R201) are its own decision D20. -/
def Obligations.OutcomesAreDistinguishable : Prop :=
  (OutcomeCode.idle.code = 0 ∧ OutcomeCode.running.code = 1 ∧ OutcomeCode.returned.code = 2 ∧
    OutcomeCode.invalidInstruction.code = 3 ∧ OutcomeCode.noReturn.code = 4 ∧ OutcomeCode.stepLimitExceeded.code = 5 ∧
    OutcomeCode.divisionByZero.code = 6 ∧ OutcomeCode.arithmeticOverflow.code = 7) ∧
  (∀ a b : OutcomeCode, a.code = b.code → a = b) ∧
  (∀ s : State, (observe s).1 = s.outcome ∧ hostReadOutcome s = s.outcome.code) ∧
  (∀ s : State, s.outcome = .returned → (observe s).2 = some s.retval.toInt ∧ (hostReadRetval s).1 = s.retval) ∧
  (∀ s : State, (∃ v, (observe s).2 = some v) ↔ s.outcome = .returned) ∧
  (∀ s t, t.outcome = s.outcome → t.retval = s.retval → observe t = observe s)

/-- The place where the host stores a table word (the model's own operation, log entry 18): from any state, the next step runs
exactly the instruction of the word. -/
def Obligations.WithFetchWordRunsThatInstruction : Prop :=
  ∀ (s : State) w i, decodeTableWord 32 w = some i →
    step (s.withFetchWord 32 w) = onNext State.countIfCompleted
      (exec i ((s.withFetchWord 32 w).cacheInstr (s.withFetchWord 32 w).pc.toNat i))

/-! ### The tables of the text form -/

/-- 30_encoding.md R62, R64, R66: the ten mnemonics and the one operand form of each, spelled as the spec writes them; a line
whose first token is none of the ten fails; a register token is `R` followed at once by an integer literal, and a register
position takes it exactly when its index is in 0..31.
The register token is the spec's own decision D6. -/
def Obligations.MnemonicsFormsAndRegisterTokensAreAsWritten : Prop :=
  (Opcode.mov.mnemonic = "MOV".toList ∧ Opcode.ret.mnemonic = "RET".toList ∧ Opcode.add.mnemonic = "ADD".toList ∧
    Opcode.sub.mnemonic = "SUB".toList ∧ Opcode.mul.mnemonic = "MUL".toList ∧ Opcode.div.mnemonic = "DIV".toList ∧
    Opcode.str.mnemonic = "STR".toList ∧ Opcode.ldr.mnemonic = "LDR".toList ∧ Opcode.jmp.mnemonic = "JMP".toList ∧
    Opcode.jz.mnemonic = "JZ".toList) ∧
  (Opcode.mov.form = [.reg, .imm] ∧ Opcode.ret.form = [.reg] ∧ Opcode.add.form = [.reg, .reg, .reg] ∧
    Opcode.sub.form = [.reg, .reg, .reg] ∧ Opcode.mul.form = [.reg, .reg, .reg] ∧ Opcode.div.form = [.reg, .reg, .reg] ∧
    Opcode.str.form = [.reg, .off, .reg] ∧ Opcode.ldr.form = [.reg, .reg, .off] ∧ Opcode.jmp.form = [.off] ∧
    Opcode.jz.form = [.reg, .off]) ∧
  (∀ line, (∀ op : Opcode, (tokens line).head? ≠ some op.mnemonic) → ∀ i, decodeText line ≠ .ok i) ∧
  (∀ t k, registerIndex t = some k ↔ ∃ u : Text, t = 'R' :: u ∧ literalValue u = some k) ∧
  (∀ t v, decodeOperand .reg t = .ok v ↔ ∃ r : Reg, v = .reg r ∧ registerIndex t = some (r.val : Int))
end

