-- ==== Sys2Proof/Laws/Decode.lean ====
section
/-!
SUPPORT. Laws/Decode.lean: the fields and masks of the five word layouts, which row a word lies in, and the small lemmas of
tokens and decimal digits.
-/

namespace Sys2Proof.Laws

/-! ### Fields of the word layouts (30_encoding.md R80) -/

section Layout

variable (op : BitVec 4) (a b c : BitVec 5) (i : BitVec 17)

theorem layoutRI_mask : (op ++ a ++ 0#6 ++ i : BitVec 32) &&& 0xF07E0000 = op ++ 0#28 := by
  ext k hk; simp only [BitVec.getElem_and, BitVec.getElem_append]; interval_cases k <;> simp
theorem layoutRI_ra : (op ++ a ++ 0#6 ++ i : BitVec 32).extractLsb' 23 5 = a := by
  ext k hk; simp only [BitVec.getElem_extractLsb', BitVec.getLsbD_append]; interval_cases k <;> simp
theorem layoutRI_imm : (op ++ a ++ 0#6 ++ i : BitVec 32).extractLsb' 0 17 = i := by
  ext k hk; simp only [BitVec.getElem_extractLsb', BitVec.getLsbD_append]; interval_cases k <;> simp

theorem layoutR_mask : (op ++ a ++ 0#23 : BitVec 32) &&& 0xF07FFFFF = op ++ 0#28 := by
  ext k hk; simp only [BitVec.getElem_and, BitVec.getElem_append]; interval_cases k <;> simp
theorem layoutR_ra : (op ++ a ++ 0#23 : BitVec 32).extractLsb' 23 5 = a := by
  ext k hk; simp only [BitVec.getElem_extractLsb', BitVec.getLsbD_append]; interval_cases k <;> simp

theorem layoutRRR_mask : (op ++ a ++ b ++ 0#13 ++ c : BitVec 32) &&& 0xF003FFE0 = op ++ 0#28 := by
  ext k hk; simp only [BitVec.getElem_and, BitVec.getElem_append]; interval_cases k <;> simp
theorem layoutRRR_ra : (op ++ a ++ b ++ 0#13 ++ c : BitVec 32).extractLsb' 23 5 = a := by
  ext k hk; simp only [BitVec.getElem_extractLsb', BitVec.getLsbD_append]; interval_cases k <;> simp
theorem layoutRRR_rb : (op ++ a ++ b ++ 0#13 ++ c : BitVec 32).extractLsb' 18 5 = b := by
  ext k hk; simp only [BitVec.getElem_extractLsb', BitVec.getLsbD_append]; interval_cases k <;> simp
theorem layoutRRR_rc : (op ++ a ++ b ++ 0#13 ++ c : BitVec 32).extractLsb' 0 5 = c := by
  ext k hk; simp only [BitVec.getElem_extractLsb', BitVec.getLsbD_append]; interval_cases k <;> simp

theorem layoutRRI_mask : (op ++ a ++ b ++ 0#1 ++ i : BitVec 32) &&& 0xF0020000 = op ++ 0#28 := by
  ext k hk; simp only [BitVec.getElem_and, BitVec.getElem_append]; interval_cases k <;> simp
theorem layoutRRI_ra : (op ++ a ++ b ++ 0#1 ++ i : BitVec 32).extractLsb' 23 5 = a := by
  ext k hk; simp only [BitVec.getElem_extractLsb', BitVec.getLsbD_append]; interval_cases k <;> simp
theorem layoutRRI_rb : (op ++ a ++ b ++ 0#1 ++ i : BitVec 32).extractLsb' 18 5 = b := by
  ext k hk; simp only [BitVec.getElem_extractLsb', BitVec.getLsbD_append]; interval_cases k <;> simp
theorem layoutRRI_imm : (op ++ a ++ b ++ 0#1 ++ i : BitVec 32).extractLsb' 0 17 = i := by
  ext k hk; simp only [BitVec.getElem_extractLsb', BitVec.getLsbD_append]; interval_cases k <;> simp

theorem layoutI_mask : (op ++ 0#11 ++ i : BitVec 32) &&& 0xFFFE0000 = op ++ 0#28 := by
  ext k hk; simp only [BitVec.getElem_and, BitVec.getElem_append]; interval_cases k <;> simp
theorem layoutI_imm : (op ++ 0#11 ++ i : BitVec 32).extractLsb' 0 17 = i := by
  ext k hk; simp only [BitVec.getElem_extractLsb', BitVec.getLsbD_append]; interval_cases k <;> simp

end Layout

/-! ### The rows (30_encoding.md R82) -/

/-- The row of an opcode. -/
def rowOf : Opcode → OpRow
  | .mov => ⟨.mov, .ri, 0x00000000, 0xF07E0000⟩
  | .ret => ⟨.ret, .r, 0x10000000, 0xF07FFFFF⟩
  | .add => ⟨.add, .rrr, 0x20000000, 0xF003FFE0⟩
  | .sub => ⟨.sub, .rrr, 0x30000000, 0xF003FFE0⟩
  | .mul => ⟨.mul, .rrr, 0x40000000, 0xF003FFE0⟩
  | .div => ⟨.div, .rrr, 0x50000000, 0xF003FFE0⟩
  | .str => ⟨.str, .rri, 0x60000000, 0xF0020000⟩
  | .ldr => ⟨.ldr, .rri, 0x70000000, 0xF0020000⟩
  | .jmp => ⟨.jmp, .i, 0x80000000, 0xFFFE0000⟩
  | .jz => ⟨.jz, .ri, 0x90000000, 0xF07E0000⟩

/-- The table holds the row of each opcode, in order. -/
theorem opRows_eq : opRows = opcodes.map rowOf := rfl

/-- A word in an opcode's row has the opcode's number in its op field. -/
theorem opField_of_matches {o : Opcode} {w : InstrWord} (h : (rowOf o).matches w = true) :
    w.extractLsb' 28 4 = o.number := by
  have h' : w &&& (rowOf o).mask = (rowOf o).pat := of_decide_eq_true h
  have hx := congrArg (BitVec.extractLsb' 28 4) h'
  rw [BitVec.extractLsb'_and] at hx
  have hm : (rowOf o).mask.extractLsb' 28 4 = 15#4 := by cases o <;> decide
  have hp : (rowOf o).pat.extractLsb' 28 4 = o.number := by cases o <;> decide
  rw [hm, hp] at hx
  rw [← hx]
  ext k hk
  simp only [BitVec.getElem_and]
  interval_cases k <;> simp

/-- A word lies in at most the row of its op field. -/
theorem row_unique {o p : Opcode} {w : InstrWord} (h : (rowOf o).matches w = true) (h' : (rowOf p).matches w = true) :
    o = p := by
  have h1 : o.number = p.number := (opField_of_matches h).symm.trans (opField_of_matches h')
  revert h1
  cases o <;> cases p <;> decide

/-- A word in an opcode's row lies in that row alone. -/
theorem filter_of_matches {o : Opcode} {w : InstrWord} (h : (rowOf o).matches w = true) :
    opRows.filter (fun row => row.matches w) = [rowOf o] := by
  have hne : ∀ p, p ≠ o → (rowOf p).matches w = false := fun p hp => by
    by_contra hc
    exact hp (row_unique (by simpa using hc) h)
  rw [opRows_eq]
  cases o <;>
    simp [opcodes, h, hne Opcode.mov, hne Opcode.ret, hne Opcode.add, hne Opcode.sub, hne Opcode.mul, hne Opcode.div,
      hne Opcode.str, hne Opcode.ldr, hne Opcode.jmp, hne Opcode.jz]

/-- What a word in an opcode's row decodes to. -/
theorem decodeWord_of_matches {o : Opcode} {w : InstrWord} (h : (rowOf o).matches w = true) :
    decodeWord w = if (rowOf o).format.hasImm && decide (imm17Field w = 0x10000) then .error .reservedImmediate
      else .ok (o.ofWord w) := by
  unfold decodeWord
  rw [filter_of_matches h]
  cases o <;> rfl

/-- A word that decodes lies in the row of the opcode it decodes by. -/
theorem decodeWord_cases {w : InstrWord} {i : Instr} (h : decodeWord w = .ok i) :
    ∃ o, (rowOf o).matches w = true ∧ i = o.ofWord w ∧
      ((rowOf o).format.hasImm = true → imm17Field w ≠ 0x10000) := by
  have hex : ∃ o, (rowOf o).matches w = true := by
    by_contra hn
    push Not at hn
    have : opRows.filter (fun row => row.matches w) = [] := by
      rw [opRows_eq]
      simp [opcodes, fun o => Bool.eq_false_iff.2 (hn o)]
    unfold decodeWord at h
    rw [this] at h
    cases h
  obtain ⟨o, ho⟩ := hex
  rw [decodeWord_of_matches ho] at h
  refine ⟨o, ho, ?_, ?_⟩
  · split at h
    · cases h
    · cases h; rfl
  · intro hi hc
    simp [hi, hc] at h

/-! ### The immediate field -/

/-- The signed value of the encoded immediate is the immediate. -/
theorem toInt_immBits {v : Int} (h : -65535 ≤ v ∧ v ≤ 65535) : (immBits v).toInt = v :=
  BitVec.toInt_ofInt_eq_self (by decide) (by simp [Config.regBits]; omega) (by simp [Config.regBits]; omega)

/-- No immediate in range has the reserved pattern. -/
theorem immBits_ne_reserved {v : Int} (h : -65535 ≤ v ∧ v ≤ 65535) : immBits v ≠ 0x10000 := by
  intro hc
  have h1 := toInt_immBits h
  rw [hc] at h1
  have : (0x10000 : BitVec Config.regBits).toInt = -65536 := by decide
  omega

/-- An immediate field that is not the reserved pattern holds a value in range. -/
theorem toInt_inRange {b : BitVec Config.regBits} (h : b ≠ 0x10000) : -65535 ≤ b.toInt ∧ b.toInt ≤ 65535 := by
  have h1 := BitVec.le_toInt b
  have h2 := BitVec.toInt_lt (x := b)
  have h3 : b.toInt ≠ -65536 := fun hc => h (BitVec.eq_of_toInt_eq (by rw [hc]; decide))
  simp only [Config.regBits] at h1 h2
  norm_num at h1 h2
  omega

/-! ### Tokens (30_encoding.md R61) -/

theorem tokens_space {c : Char} (h : isSpace c = true) (t : Text) : tokens (c :: t) = tokens t := by
  simp [tokens, h]

theorem tokens_last {c : Char} (h : isSpace c = false) : tokens [c] = [[c]] := by
  simp [tokens, h]

theorem tokens_before_space {c d : Char} (h : isSpace c = false) (hd : isSpace d = true) (t : Text) :
    tokens (c :: d :: t) = [c] :: tokens (d :: t) := by
  rw [tokens.eq_def]; simp [h, hd]

theorem tokens_grow {c d : Char} (h : isSpace c = false) (hd : isSpace d = false) {t u : Text} {ts : List Text}
    (ht : tokens (d :: t) = u :: ts) : tokens (c :: d :: t) = (c :: u) :: ts := by
  rw [tokens.eq_def]; simp [h, hd, ht]

/-! ### Decimal digits (30_encoding.md R63) -/

theorem digitChar_toNat {d : Nat} (h : d < 10) : (Char.ofNat (48 + d)).toNat = 48 + d := by
  interval_cases d <;> rfl

theorem digitsValue_digit {c : Char} (h : isDigit c = true) (acc : Nat) (t : Text) :
    digitsValue acc (c :: t) = digitsValue (acc * 10 + (c.toNat - 48)) t := by
  simp [digitsValue, h]

theorem digitsValue_not_digit {c : Char} (h : isDigit c = false) (acc : Nat) (t : Text) :
    digitsValue acc (c :: t) = none := by
  simp [digitsValue, h]

end Sys2Proof.Laws
end

