-- ==== Sys2Proof/Laws/State.lean ====
section
/-!
SUPPORT. Laws/State.lean: one lemma per field per update of State, and what each update leaves of the reads of a register, a
cell, a line and the cache, so that no later proof unfolds a record update.
-/

namespace Sys2Proof.Machine

@[simp] theorem State.setReg_pc (s : State) (r : Reg) (v : Int) : (s.setReg r v).pc = s.pc := rfl
@[simp] theorem State.setReg_x (s : State) (r : Reg) (v : Int) : (s.setReg r v).x = s.x.set r.val v r.isLt := rfl
@[simp] theorem State.setReg_mem (s : State) (r : Reg) (v : Int) : (s.setReg r v).mem = s.mem := rfl
@[simp] theorem State.setReg_outcome (s : State) (r : Reg) (v : Int) : (s.setReg r v).outcome = s.outcome := rfl
@[simp] theorem State.setReg_steps (s : State) (r : Reg) (v : Int) : (s.setReg r v).steps = s.steps := rfl
@[simp] theorem State.setReg_dec (s : State) (r : Reg) (v : Int) : (s.setReg r v).dec = s.dec := rfl
@[simp] theorem State.setReg_run (s : State) (r : Reg) (v : Int) : (s.setReg r v).run = s.run := rfl
@[simp] theorem State.setReg_store (s : State) (r : Reg) (v : Int) : (s.setReg r v).store = s.store := rfl
@[simp] theorem State.setReg_retval (s : State) (r : Reg) (v : Int) : (s.setReg r v).retval = s.retval := rfl
@[simp] theorem State.setReg_progLen (s : State) (r : Reg) (v : Int) : (s.setReg r v).progLen = s.progLen := rfl
@[simp] theorem State.setReg_stepLimitEn (s : State) (r : Reg) (v : Int) : (s.setReg r v).stepLimitEn = s.stepLimitEn := rfl
@[simp] theorem State.setReg_stepLimitVal (s : State) (r : Reg) (v : Int) : (s.setReg r v).stepLimitVal = s.stepLimitVal := rfl
@[simp] theorem State.setReg_freeCount (s : State) (r : Reg) (v : Int) : (s.setReg r v).freeCount = s.freeCount := rfl

@[simp] theorem State.setPc_pc (s : State) (t : Int) : (s.setPc t).pc = t := rfl
@[simp] theorem State.setPc_x (s : State) (t : Int) : (s.setPc t).x = s.x := rfl
@[simp] theorem State.setPc_mem (s : State) (t : Int) : (s.setPc t).mem = s.mem := rfl
@[simp] theorem State.setPc_outcome (s : State) (t : Int) : (s.setPc t).outcome = s.outcome := rfl
@[simp] theorem State.setPc_steps (s : State) (t : Int) : (s.setPc t).steps = s.steps := rfl
@[simp] theorem State.setPc_dec (s : State) (t : Int) : (s.setPc t).dec = s.dec := rfl
@[simp] theorem State.setPc_run (s : State) (t : Int) : (s.setPc t).run = s.run := rfl
@[simp] theorem State.setPc_store (s : State) (t : Int) : (s.setPc t).store = s.store := rfl
@[simp] theorem State.setPc_retval (s : State) (t : Int) : (s.setPc t).retval = s.retval := rfl
@[simp] theorem State.setPc_progLen (s : State) (t : Int) : (s.setPc t).progLen = s.progLen := rfl
@[simp] theorem State.setPc_stepLimitEn (s : State) (t : Int) : (s.setPc t).stepLimitEn = s.stepLimitEn := rfl
@[simp] theorem State.setPc_stepLimitVal (s : State) (t : Int) : (s.setPc t).stepLimitVal = s.stepLimitVal := rfl
@[simp] theorem State.setPc_freeCount (s : State) (t : Int) : (s.setPc t).freeCount = s.freeCount := rfl

@[simp] theorem State.advance_pc (s : State) : (s.advance).pc = s.pc + 1 := rfl
@[simp] theorem State.advance_x (s : State) : (s.advance).x = s.x := rfl
@[simp] theorem State.advance_mem (s : State) : (s.advance).mem = s.mem := rfl
@[simp] theorem State.advance_outcome (s : State) : (s.advance).outcome = s.outcome := rfl
@[simp] theorem State.advance_steps (s : State) : (s.advance).steps = s.steps := rfl
@[simp] theorem State.advance_dec (s : State) : (s.advance).dec = s.dec := rfl
@[simp] theorem State.advance_run (s : State) : (s.advance).run = s.run := rfl
@[simp] theorem State.advance_store (s : State) : (s.advance).store = s.store := rfl
@[simp] theorem State.advance_retval (s : State) : (s.advance).retval = s.retval := rfl
@[simp] theorem State.advance_progLen (s : State) : (s.advance).progLen = s.progLen := rfl
@[simp] theorem State.advance_stepLimitEn (s : State) : (s.advance).stepLimitEn = s.stepLimitEn := rfl
@[simp] theorem State.advance_stepLimitVal (s : State) : (s.advance).stepLimitVal = s.stepLimitVal := rfl
@[simp] theorem State.advance_freeCount (s : State) : (s.advance).freeCount = s.freeCount := rfl

@[simp] theorem State.memWrite_pc (s : State) (a : Nat) (v : Int) : (s.memWrite a v).pc = s.pc := rfl
@[simp] theorem State.memWrite_x (s : State) (a : Nat) (v : Int) : (s.memWrite a v).x = s.x := rfl
@[simp] theorem State.memWrite_mem (s : State) (a : Nat) (v : Int) : (s.memWrite a v).mem = Memory.write s.mem a v := rfl
@[simp] theorem State.memWrite_outcome (s : State) (a : Nat) (v : Int) : (s.memWrite a v).outcome = s.outcome := rfl
@[simp] theorem State.memWrite_steps (s : State) (a : Nat) (v : Int) : (s.memWrite a v).steps = s.steps := rfl
@[simp] theorem State.memWrite_dec (s : State) (a : Nat) (v : Int) : (s.memWrite a v).dec = s.dec := rfl
@[simp] theorem State.memWrite_run (s : State) (a : Nat) (v : Int) : (s.memWrite a v).run = s.run := rfl
@[simp] theorem State.memWrite_store (s : State) (a : Nat) (v : Int) : (s.memWrite a v).store = s.store := rfl
@[simp] theorem State.memWrite_retval (s : State) (a : Nat) (v : Int) : (s.memWrite a v).retval = s.retval := rfl
@[simp] theorem State.memWrite_progLen (s : State) (a : Nat) (v : Int) : (s.memWrite a v).progLen = s.progLen := rfl
@[simp] theorem State.memWrite_stepLimitEn (s : State) (a : Nat) (v : Int) : (s.memWrite a v).stepLimitEn = s.stepLimitEn := rfl
@[simp] theorem State.memWrite_stepLimitVal (s : State) (a : Nat) (v : Int) : (s.memWrite a v).stepLimitVal = s.stepLimitVal := rfl
@[simp] theorem State.memWrite_freeCount (s : State) (a : Nat) (v : Int) : (s.memWrite a v).freeCount = s.freeCount := rfl

@[simp] theorem State.setOutcome_pc (s : State) (o : OutcomeCode) : (s.setOutcome o).pc = s.pc := rfl
@[simp] theorem State.setOutcome_x (s : State) (o : OutcomeCode) : (s.setOutcome o).x = s.x := rfl
@[simp] theorem State.setOutcome_mem (s : State) (o : OutcomeCode) : (s.setOutcome o).mem = s.mem := rfl
@[simp] theorem State.setOutcome_outcome (s : State) (o : OutcomeCode) : (s.setOutcome o).outcome = o := rfl
@[simp] theorem State.setOutcome_steps (s : State) (o : OutcomeCode) : (s.setOutcome o).steps = s.steps := rfl
@[simp] theorem State.setOutcome_dec (s : State) (o : OutcomeCode) : (s.setOutcome o).dec = s.dec := rfl
@[simp] theorem State.setOutcome_run (s : State) (o : OutcomeCode) : (s.setOutcome o).run = s.run := rfl
@[simp] theorem State.setOutcome_store (s : State) (o : OutcomeCode) : (s.setOutcome o).store = s.store := rfl
@[simp] theorem State.setOutcome_retval (s : State) (o : OutcomeCode) : (s.setOutcome o).retval = s.retval := rfl
@[simp] theorem State.setOutcome_progLen (s : State) (o : OutcomeCode) : (s.setOutcome o).progLen = s.progLen := rfl
@[simp] theorem State.setOutcome_stepLimitEn (s : State) (o : OutcomeCode) : (s.setOutcome o).stepLimitEn = s.stepLimitEn := rfl
@[simp] theorem State.setOutcome_stepLimitVal (s : State) (o : OutcomeCode) : (s.setOutcome o).stepLimitVal = s.stepLimitVal := rfl
@[simp] theorem State.setOutcome_freeCount (s : State) (o : OutcomeCode) : (s.setOutcome o).freeCount = s.freeCount := rfl

@[simp] theorem State.haltReturn_pc (s : State) (v : Int) : (s.haltReturn v).pc = s.pc := rfl
@[simp] theorem State.haltReturn_x (s : State) (v : Int) : (s.haltReturn v).x = s.x := rfl
@[simp] theorem State.haltReturn_mem (s : State) (v : Int) : (s.haltReturn v).mem = s.mem := rfl
@[simp] theorem State.haltReturn_outcome (s : State) (v : Int) : (s.haltReturn v).outcome = .returned := rfl
@[simp] theorem State.haltReturn_steps (s : State) (v : Int) : (s.haltReturn v).steps = s.steps := rfl
@[simp] theorem State.haltReturn_dec (s : State) (v : Int) : (s.haltReturn v).dec = s.dec := rfl
@[simp] theorem State.haltReturn_run (s : State) (v : Int) : (s.haltReturn v).run = s.run := rfl
@[simp] theorem State.haltReturn_store (s : State) (v : Int) : (s.haltReturn v).store = s.store := rfl
@[simp] theorem State.haltReturn_retval (s : State) (v : Int) : (s.haltReturn v).retval = BitVec.ofInt Config.regBits v := rfl
@[simp] theorem State.haltReturn_progLen (s : State) (v : Int) : (s.haltReturn v).progLen = s.progLen := rfl
@[simp] theorem State.haltReturn_stepLimitEn (s : State) (v : Int) : (s.haltReturn v).stepLimitEn = s.stepLimitEn := rfl
@[simp] theorem State.haltReturn_stepLimitVal (s : State) (v : Int) : (s.haltReturn v).stepLimitVal = s.stepLimitVal := rfl
@[simp] theorem State.haltReturn_freeCount (s : State) (v : Int) : (s.haltReturn v).freeCount = s.freeCount := rfl

@[simp] theorem State.countStep_pc (s : State) : (s.countStep).pc = s.pc := rfl
@[simp] theorem State.countStep_x (s : State) : (s.countStep).x = s.x := rfl
@[simp] theorem State.countStep_mem (s : State) : (s.countStep).mem = s.mem := rfl
@[simp] theorem State.countStep_outcome (s : State) : (s.countStep).outcome = s.outcome := rfl
@[simp] theorem State.countStep_steps (s : State) : (s.countStep).steps = s.steps + 1 := rfl
@[simp] theorem State.countStep_dec (s : State) : (s.countStep).dec = s.dec := rfl
@[simp] theorem State.countStep_run (s : State) : (s.countStep).run = s.run := rfl
@[simp] theorem State.countStep_store (s : State) : (s.countStep).store = s.store := rfl
@[simp] theorem State.countStep_retval (s : State) : (s.countStep).retval = s.retval := rfl
@[simp] theorem State.countStep_progLen (s : State) : (s.countStep).progLen = s.progLen := rfl
@[simp] theorem State.countStep_stepLimitEn (s : State) : (s.countStep).stepLimitEn = s.stepLimitEn := rfl
@[simp] theorem State.countStep_stepLimitVal (s : State) : (s.countStep).stepLimitVal = s.stepLimitVal := rfl
@[simp] theorem State.countStep_freeCount (s : State) : (s.countStep).freeCount = s.freeCount := rfl

@[simp] theorem State.cacheInstr_pc (s : State) (k : Nat) (i : Instr) : (s.cacheInstr k i).pc = s.pc := rfl
@[simp] theorem State.cacheInstr_x (s : State) (k : Nat) (i : Instr) : (s.cacheInstr k i).x = s.x := rfl
@[simp] theorem State.cacheInstr_mem (s : State) (k : Nat) (i : Instr) : (s.cacheInstr k i).mem = s.mem := rfl
@[simp] theorem State.cacheInstr_outcome (s : State) (k : Nat) (i : Instr) : (s.cacheInstr k i).outcome = s.outcome := rfl
@[simp] theorem State.cacheInstr_steps (s : State) (k : Nat) (i : Instr) : (s.cacheInstr k i).steps = s.steps := rfl
@[simp] theorem State.cacheInstr_dec (s : State) (k : Nat) (i : Instr) : (s.cacheInstr k i).dec = Table.insert k i s.dec := rfl
@[simp] theorem State.cacheInstr_run (s : State) (k : Nat) (i : Instr) : (s.cacheInstr k i).run = s.run := rfl
@[simp] theorem State.cacheInstr_store (s : State) (k : Nat) (i : Instr) : (s.cacheInstr k i).store = s.store := rfl
@[simp] theorem State.cacheInstr_retval (s : State) (k : Nat) (i : Instr) : (s.cacheInstr k i).retval = s.retval := rfl
@[simp] theorem State.cacheInstr_progLen (s : State) (k : Nat) (i : Instr) : (s.cacheInstr k i).progLen = s.progLen := rfl
@[simp] theorem State.cacheInstr_stepLimitEn (s : State) (k : Nat) (i : Instr) : (s.cacheInstr k i).stepLimitEn = s.stepLimitEn := rfl
@[simp] theorem State.cacheInstr_stepLimitVal (s : State) (k : Nat) (i : Instr) : (s.cacheInstr k i).stepLimitVal = s.stepLimitVal := rfl
@[simp] theorem State.cacheInstr_freeCount (s : State) (k : Nat) (i : Instr) : (s.cacheInstr k i).freeCount = s.freeCount := rfl

@[simp] theorem State.setReg_memRead (s : State) (r : Reg) (v : Int) (b : Nat) : (s.setReg r v).memRead b = s.memRead b := rfl
@[simp] theorem State.setReg_fetchLine (s : State) (r : Reg) (v : Int) (j : Nat) : (s.setReg r v).fetchLine j = s.fetchLine j := rfl
@[simp] theorem State.setReg_cached (s : State) (r : Reg) (v : Int) (j : Nat) : (s.setReg r v).cached j = s.cached j := rfl

@[simp] theorem State.setPc_reg (s : State) (t : Int) (q : Reg) : (s.setPc t).reg q = s.reg q := rfl
@[simp] theorem State.setPc_memRead (s : State) (t : Int) (b : Nat) : (s.setPc t).memRead b = s.memRead b := rfl
@[simp] theorem State.setPc_fetchLine (s : State) (t : Int) (j : Nat) : (s.setPc t).fetchLine j = s.fetchLine j := rfl
@[simp] theorem State.setPc_cached (s : State) (t : Int) (j : Nat) : (s.setPc t).cached j = s.cached j := rfl

@[simp] theorem State.advance_reg (s : State) (q : Reg) : (s.advance).reg q = s.reg q := rfl
@[simp] theorem State.advance_memRead (s : State) (b : Nat) : (s.advance).memRead b = s.memRead b := rfl
@[simp] theorem State.advance_fetchLine (s : State) (j : Nat) : (s.advance).fetchLine j = s.fetchLine j := rfl
@[simp] theorem State.advance_cached (s : State) (j : Nat) : (s.advance).cached j = s.cached j := rfl

@[simp] theorem State.memWrite_reg (s : State) (a : Nat) (v : Int) (q : Reg) : (s.memWrite a v).reg q = s.reg q := rfl
@[simp] theorem State.memWrite_fetchLine (s : State) (a : Nat) (v : Int) (j : Nat) : (s.memWrite a v).fetchLine j = s.fetchLine j := rfl
@[simp] theorem State.memWrite_cached (s : State) (a : Nat) (v : Int) (j : Nat) : (s.memWrite a v).cached j = s.cached j := rfl

@[simp] theorem State.setOutcome_reg (s : State) (o : OutcomeCode) (q : Reg) : (s.setOutcome o).reg q = s.reg q := rfl
@[simp] theorem State.setOutcome_memRead (s : State) (o : OutcomeCode) (b : Nat) : (s.setOutcome o).memRead b = s.memRead b := rfl
@[simp] theorem State.setOutcome_fetchLine (s : State) (o : OutcomeCode) (j : Nat) : (s.setOutcome o).fetchLine j = s.fetchLine j := rfl
@[simp] theorem State.setOutcome_cached (s : State) (o : OutcomeCode) (j : Nat) : (s.setOutcome o).cached j = s.cached j := rfl

@[simp] theorem State.haltReturn_reg (s : State) (v : Int) (q : Reg) : (s.haltReturn v).reg q = s.reg q := rfl
@[simp] theorem State.haltReturn_memRead (s : State) (v : Int) (b : Nat) : (s.haltReturn v).memRead b = s.memRead b := rfl
@[simp] theorem State.haltReturn_fetchLine (s : State) (v : Int) (j : Nat) : (s.haltReturn v).fetchLine j = s.fetchLine j := rfl
@[simp] theorem State.haltReturn_cached (s : State) (v : Int) (j : Nat) : (s.haltReturn v).cached j = s.cached j := rfl

@[simp] theorem State.countStep_reg (s : State) (q : Reg) : (s.countStep).reg q = s.reg q := rfl
@[simp] theorem State.countStep_memRead (s : State) (b : Nat) : (s.countStep).memRead b = s.memRead b := rfl
@[simp] theorem State.countStep_fetchLine (s : State) (j : Nat) : (s.countStep).fetchLine j = s.fetchLine j := rfl
@[simp] theorem State.countStep_cached (s : State) (j : Nat) : (s.countStep).cached j = s.cached j := rfl

@[simp] theorem State.cacheInstr_reg (s : State) (k : Nat) (i : Instr) (q : Reg) : (s.cacheInstr k i).reg q = s.reg q := rfl
@[simp] theorem State.cacheInstr_memRead (s : State) (k : Nat) (i : Instr) (b : Nat) : (s.cacheInstr k i).memRead b = s.memRead b := rfl
@[simp] theorem State.cacheInstr_fetchLine (s : State) (k : Nat) (i : Instr) (j : Nat) : (s.cacheInstr k i).fetchLine j = s.fetchLine j := rfl

/-- A register reads what was last written to it. -/
@[simp] theorem State.reg_setReg_same (s : State) (r : Reg) (v : Int) : (s.setReg r v).reg r = v := by
  simp [State.reg, State.setReg]

/-- Writing one register leaves every other as it was. -/
@[simp] theorem State.reg_setReg_ne (s : State) {r q : Reg} (v : Int) (h : q ≠ r) : (s.setReg r v).reg q = s.reg q := by
  have : r.val ≠ q.val := fun e => h (Fin.ext e.symm)
  simp [State.reg, State.setReg, this]

theorem State.reg_setReg (s : State) (r q : Reg) (v : Int) :
    (s.setReg r v).reg q = if q = r then v else s.reg q := by
  by_cases h : q = r
  · subst h; simp
  · simp [h]

/-- Two register files that read alike are equal. -/
theorem State.x_ext {s t : State} (h : ∀ r, t.reg r = s.reg r) : t.x = s.x := by
  apply Vector.ext
  intro k hk
  simpa [State.reg] using h ⟨k, hk⟩

end Sys2Proof.Machine
end

