-- ==== Sys2Proof/Laws/Table.lean ====
section
/-!
SUPPORT. Laws/Table.lean: partial maps: read after write, the frame of a write, and that writes keep the keys rising; and
the same for data memory.
-/

namespace Sys2Proof.Machine

variable {α : Type}

@[simp] theorem Table.find_nil (k : Nat) : Table.find k ([] : List (Nat × α)) = none := rfl

@[simp] theorem Table.find_insert_same (k : Nat) (v : α) (t : List (Nat × α)) :
    Table.find k (Table.insert k v t) = some v := by
  induction t with
  | nil => simp [Table.insert, Table.find]
  | cons e t ih =>
    obtain ⟨j, u⟩ := e
    simp only [Table.insert]
    split
    · simp [Table.find]
    · split
      · simp [Table.find]
      · rename_i h1 h2
        simp [Table.find, ih, Ne.symm h2]

@[simp] theorem Table.find_insert_ne {k j : Nat} (h : j ≠ k) (v : α) (t : List (Nat × α)) :
    Table.find j (Table.insert k v t) = Table.find j t := by
  induction t with
  | nil => simp [Table.insert, Table.find, Ne.symm h]
  | cons e t ih =>
    obtain ⟨i, u⟩ := e
    simp only [Table.insert]
    split
    · simp [Table.find, Ne.symm h]
    · split
      · rename_i h1 h2; subst h2
        simp [Table.find, Ne.symm h]
      · simp [Table.find, ih]

@[simp] theorem Table.find_erase_same (k : Nat) (t : List (Nat × α)) : Table.find k (Table.erase k t) = none := by
  induction t with
  | nil => rfl
  | cons e t ih =>
    obtain ⟨j, u⟩ := e
    by_cases h : j = k <;> simp_all [Table.erase, Table.find]

@[simp] theorem Table.find_erase_ne {k j : Nat} (h : j ≠ k) (t : List (Nat × α)) :
    Table.find j (Table.erase k t) = Table.find j t := by
  induction t with
  | nil => rfl
  | cons e t ih =>
    obtain ⟨i, u⟩ := e
    have ih' : Table.find j (t.filter (fun e => decide (e.1 ≠ k))) = Table.find j t := ih
    by_cases hi : i = k
    · subst hi
      simpa [Table.erase, Table.find, Ne.symm h] using ih'
    · have : Table.erase k ((i, u) :: t) = (i, u) :: Table.erase k t := by simp [Table.erase, hi]
      rw [this]
      simp only [Table.find]
      rw [ih]

/-- What a map holds after a write. -/
theorem Table.mem_insert {k : Nat} {v : α} {t : List (Nat × α)} {e : Nat × α} (h : e ∈ Table.insert k v t) :
    e = (k, v) ∨ e ∈ t := by
  induction t with
  | nil => simpa [Table.insert] using h
  | cons d t ih =>
    obtain ⟨j, u⟩ := d
    simp only [Table.insert] at h
    split at h
    · simpa using h
    · split at h
      · rcases List.mem_cons.1 h with h | h
        · exact .inl h
        · exact .inr (List.mem_cons_of_mem _ h)
      · rcases List.mem_cons.1 h with h | h
        · exact .inr (h ▸ List.mem_cons_self)
        · exact (ih h).imp_right (List.mem_cons_of_mem _)

theorem Table.sorted_insert {t : List (Nat × α)} (h : Table.Sorted t) (k : Nat) (v : α) :
    Table.Sorted (Table.insert k v t) := by
  induction t with
  | nil => simp [Table.insert, Table.Sorted]
  | cons d t ih =>
    obtain ⟨j, u⟩ := d
    have h' := List.pairwise_cons.1 h
    simp only [Table.insert]
    split
    · rename_i hk
      refine List.pairwise_cons.2 ⟨fun e he => ?_, h⟩
      rcases List.mem_cons.1 he with rfl | he
      · exact hk
      · exact lt_trans hk (h'.1 e he)
    · split
      · rename_i hk; subst hk
        exact List.pairwise_cons.2 ⟨h'.1, h'.2⟩
      · rename_i h1 h2
        refine List.pairwise_cons.2 ⟨fun e he => ?_, ih h'.2⟩
        rcases Table.mem_insert he with rfl | he
        · show j < k
          omega
        · exact h'.1 e he

theorem Table.sorted_erase {t : List (Nat × α)} (h : Table.Sorted t) (k : Nat) : Table.Sorted (Table.erase k t) :=
  List.Pairwise.filter _ h

/-! ### Data memory -/

@[simp] theorem Memory.read_nil (a : Nat) : Memory.read [] a = 0 := rfl

@[simp] theorem Memory.read_write_same (m : Memory) (a : Nat) (v : Int) : Memory.read (Memory.write m a v) a = v := by
  unfold Memory.write
  split
  · rename_i h; simp [Memory.read, h]
  · simp [Memory.read]

@[simp] theorem Memory.read_write_ne (m : Memory) {a b : Nat} (h : b ≠ a) (v : Int) :
    Memory.read (Memory.write m a v) b = Memory.read m b := by
  unfold Memory.write
  split <;> simp [Memory.read, h]

/-- A write keeps the canonical form. -/
theorem Memory.wf_write {m : Memory} (h : Memory.wf m) (a : Nat) (v : Int) : Memory.wf (Memory.write m a v) := by
  unfold Memory.write
  split
  · exact ⟨Table.sorted_erase h.1 a, fun e he => h.2 e (List.mem_of_mem_filter he)⟩
  · rename_i hv
    refine ⟨Table.sorted_insert h.1 a v, fun e he => ?_⟩
    rcases Table.mem_insert he with rfl | he
    · exact hv
    · exact h.2 e he

/-- A write adds no address but its own. -/
theorem Memory.mem_write {m : Memory} {a : Nat} {v : Int} {e : Nat × Int} (h : e ∈ Memory.write m a v) :
    e.1 = a ∨ e ∈ m := by
  unfold Memory.write at h
  split at h
  · exact .inr (List.mem_of_mem_filter h)
  · exact (Table.mem_insert h).imp (fun e => by rw [e]) id

/-- Reset memory is in canonical form. -/
theorem Memory.wf_reset : Memory.wf State.reset.mem := by decide

@[simp] theorem State.memRead_memWrite_same (s : State) (a : Nat) (v : Int) : (s.memWrite a v).memRead a = v :=
  Memory.read_write_same s.mem a v

@[simp] theorem State.memRead_memWrite_ne (s : State) {a b : Nat} (h : b ≠ a) (v : Int) :
    (s.memWrite a v).memRead b = s.memRead b :=
  Memory.read_write_ne s.mem h v

@[simp] theorem State.cached_cacheInstr_same (s : State) (k : Nat) (i : Instr) :
    (s.cacheInstr k i).cached k = some i :=
  Table.find_insert_same k i s.dec

@[simp] theorem State.cached_cacheInstr_ne (s : State) {k j : Nat} (h : j ≠ k) (i : Instr) :
    (s.cacheInstr k i).cached j = s.cached j :=
  Table.find_insert_ne h i s.dec

end Sys2Proof.Machine
end

