-- ==== Sys2Proof/Laws/Exec.lean ====
section
/-!
SUPPORT. Laws/Exec.lean: what each shared operation, each instruction and the whole of exec can do, said once.
-/

namespace Sys2Proof.Machine

@[simp] theorem onNext_next (f : State → State) (t : State) : onNext f (.next t) = .next (f t) := rfl

theorem onNext_eq_next {f : State → State} {a : Answer} {t : State} (h : onNext f a = .next t) :
    ∃ u, a = .next u ∧ t = f u := by
  cases a with
  | next u => exact ⟨u, rfl, by simpa [onNext] using h.symm⟩
  | fault e => simp [onNext] at h
  | refused e => simp [onNext] at h

theorem raise_eq (k : OutcomeCode) (s : State) : raise k s = .next (s.setOutcome k) := rfl

theorem onlyOutcome_setOutcome (k : OutcomeCode) (s : State) : OnlyOutcome k s (s.setOutcome k) := ⟨rfl, rfl⟩

theorem writeReg_eq (rd : Reg) (v : Int) (s : State) : writeReg rd v s = .next (s.setReg rd v).advance := rfl

theorem writeResult_inV {v : Int} (h : InV v) (rd : Reg) (s : State) :
    writeResult rd v s = .next (s.setReg rd v).advance := by simp [writeResult, h, writeReg]

theorem writeResult_not_inV {v : Int} (h : ¬ InV v) (rd : Reg) (s : State) :
    writeResult rd v s = .next (s.setOutcome .arithmeticOverflow) := by
  simp only [writeResult, if_neg h, raise]

theorem storeCell_inA {a : Int} (h : InA a) (v : Int) (s : State) : s.storeCell a v = s.memWrite a.toNat v := by
  simp only [State.storeCell, if_pos h]

theorem storeCell_not_inA {a : Int} (h : ¬ InA a) (v : Int) (s : State) : s.storeCell a v = s := by
  simp only [State.storeCell, if_neg h]

theorem loadCell_inA {a : Int} (h : InA a) (r : Reg) (s : State) :
    s.loadCell r a = s.setReg r (s.memRead a.toNat) := by
  simp only [State.loadCell, if_pos h]

theorem loadCell_not_inA {a : Int} (h : ¬ InA a) (r : Reg) (s : State) : s.loadCell r a = s := by
  simp only [State.loadCell, if_neg h]

theorem countIfCompleted_of_failure {s : State} (h : s.outcome.isFailure = true) : s.countIfCompleted = s := by
  simp [State.countIfCompleted, h]

theorem countIfCompleted_of_not_failure {s : State} (h : s.outcome.isFailure = false) :
    s.countIfCompleted = s.countStep := by
  simp [State.countIfCompleted, h]

/-! ### One equation per instruction -/

theorem exec_mov (rd : Reg) (imm : Int) (s : State) : exec (.mov rd imm) s = .next (s.setReg rd imm).advance := rfl

theorem exec_ret (rs : Reg) (s : State) : exec (.ret rs) s = .next (s.haltReturn (s.reg rs)) := rfl

theorem exec_add (rd rs1 rs2 : Reg) (s : State) :
    exec (.add rd rs1 rs2) s = writeResult rd (s.reg rs1 + s.reg rs2) s := rfl

theorem exec_sub (rd rs1 rs2 : Reg) (s : State) :
    exec (.sub rd rs1 rs2) s = writeResult rd (s.reg rs1 - s.reg rs2) s := rfl

theorem exec_mul (rd rs1 rs2 : Reg) (s : State) :
    exec (.mul rd rs1 rs2) s = writeResult rd (s.reg rs1 * s.reg rs2) s := rfl

theorem exec_div_zero {s : State} {rs2 : Reg} (h : s.reg rs2 = 0) (rd rs1 : Reg) :
    exec (.div rd rs1 rs2) s = .next (s.setOutcome .divisionByZero) := by
  show execDiv rd rs1 rs2 s = _
  simp only [execDiv, IsZero, if_pos h, raise]

theorem exec_div_nonzero {s : State} {rs2 : Reg} (h : s.reg rs2 ≠ 0) (rd rs1 : Reg) :
    exec (.div rd rs1 rs2) s = .next (s.setReg rd (quot (s.reg rs1) (s.reg rs2))).advance := by
  show execDiv rd rs1 rs2 s = _
  simp only [execDiv, IsZero, if_neg h, writeReg]

theorem exec_str (rbase : Reg) (off : Int) (rval : Reg) (s : State) :
    exec (.str rbase off rval) s = .next (s.storeCell (s.reg rbase + off) (s.reg rval)).advance := rfl

theorem exec_ldr (rdest rbase : Reg) (off : Int) (s : State) :
    exec (.ldr rdest rbase off) s = .next (s.loadCell rdest (s.reg rbase + off)).advance := rfl

theorem exec_jmp (off : Int) (s : State) : exec (.jmp off) s = .next (s.setPc (s.pc + off)) := rfl

theorem exec_jz_zero {s : State} {rcond : Reg} (h : s.reg rcond = 0) (off : Int) :
    exec (.jz rcond off) s = .next (s.setPc (s.pc + off)) := by
  show execJz rcond off s = _
  simp only [execJz, IsZero, if_pos h, State.branchTarget]

theorem exec_jz_nonzero {s : State} {rcond : Reg} (h : s.reg rcond ≠ 0) (off : Int) :
    exec (.jz rcond off) s = .next s.advance := by
  show execJz rcond off s = _
  simp only [execJz, IsZero, if_neg h]

/-! ### The quotient -/

theorem quot_natAbs (a b : Int) : (quot a b).natAbs = a.natAbs / b.natAbs := Int.natAbs_tdiv a b

theorem quot_inV {a : Int} (h : InV a) (b : Int) : InV (quot a b) := by
  have h1 := quot_natAbs a b
  have h2 := Nat.div_le_self a.natAbs b.natAbs
  simp only [InV, Config.vMin, Config.vMax] at *
  omega

/-! ### What an instruction can do -/

/-- The arithmetic instructions, DIV among them, and the others: every way in which an instruction leads to its next
state. -/
inductive Effect (i : Instr) (s : State) : State → Prop where
  /-- the destination register is written -/
  | wrote (rd : Reg) (v : Int) (hd : destReg i = some rd) (hv : (∀ r, InV (s.reg r)) → (∀ a, InV (s.memRead a)) →
      i.WellFormed → InV v) (hop : i.opcode ≠ .ret ∧ i.opcode ≠ .jmp ∧ i.opcode ≠ .jz) :
      Effect i s (s.setReg rd v).advance
  /-- a cell is written -/
  | stored (rbase : Reg) (off : Int) (rval : Reg) (hi : i = .str rbase off rval) (ha : InA (s.reg rbase + off)) :
      Effect i s (s.memWrite (s.reg rbase + off).toNat (s.reg rval)).advance
  /-- only the pc moves to the next line: an access out of range -/
  | skipped (hi : (∃ rbase off rval, i = .str rbase off rval ∧ ¬ InA (s.reg rbase + off)) ∨
      (∃ rdest rbase off, i = .ldr rdest rbase off ∧ ¬ InA (s.reg rbase + off))) : Effect i s s.advance
  /-- JMP, and JZ either way -/
  | jumped (p : Int) (hi : (∃ off, i = .jmp off ∧ p = s.pc + off) ∨
      (∃ rcond off, i = .jz rcond off ∧ p = if s.reg rcond = 0 then s.pc + off else s.pc + 1)) : Effect i s (s.setPc p)
  /-- RET -/
  | halted (rs : Reg) (hi : i = .ret rs) : Effect i s (s.haltReturn (s.reg rs))
  /-- an outcome is raised -/
  | raised (k : OutcomeCode) (hk : (k = .divisionByZero ∧ ∃ rd rs1 rs2, i = .div rd rs1 rs2 ∧ s.reg rs2 = 0) ∨
      (k = .arithmeticOverflow ∧ ∃ rd rs1 rs2, (i = .add rd rs1 rs2 ∧ ¬ InV (s.reg rs1 + s.reg rs2)) ∨
        (i = .sub rd rs1 rs2 ∧ ¬ InV (s.reg rs1 - s.reg rs2)) ∨
        (i = .mul rd rs1 rs2 ∧ ¬ InV (s.reg rs1 * s.reg rs2)))) : Effect i s (s.setOutcome k)

/-- Every instruction answers a next state, in one of the ways of `Effect`. -/
theorem exec_effect (i : Instr) (s : State) : ∃ t, exec i s = .next t ∧ Effect i s t := by
  cases i with
  | mov rd imm =>
    exact ⟨_, exec_mov .., .wrote rd imm rfl (fun _ _ hw => by simpa [Instr.WellFormed, Instr.wellFormed] using hw)
      (by simp [Instr.opcode])⟩
  | ret rs => exact ⟨_, exec_ret .., .halted rs rfl⟩
  | add rd rs1 rs2 =>
    by_cases h : InV (s.reg rs1 + s.reg rs2)
    · exact ⟨_, by rw [exec_add, writeResult_inV h], .wrote rd _ rfl (fun _ _ _ => h) (by simp [Instr.opcode])⟩
    · exact ⟨_, by rw [exec_add, writeResult_not_inV h], .raised _ (.inr ⟨rfl, rd, rs1, rs2, .inl ⟨rfl, h⟩⟩)⟩
  | sub rd rs1 rs2 =>
    by_cases h : InV (s.reg rs1 - s.reg rs2)
    · exact ⟨_, by rw [exec_sub, writeResult_inV h], .wrote rd _ rfl (fun _ _ _ => h) (by simp [Instr.opcode])⟩
    · exact ⟨_, by rw [exec_sub, writeResult_not_inV h], .raised _ (.inr ⟨rfl, rd, rs1, rs2, .inr (.inl ⟨rfl, h⟩)⟩)⟩
  | mul rd rs1 rs2 =>
    by_cases h : InV (s.reg rs1 * s.reg rs2)
    · exact ⟨_, by rw [exec_mul, writeResult_inV h], .wrote rd _ rfl (fun _ _ _ => h) (by simp [Instr.opcode])⟩
    · exact ⟨_, by rw [exec_mul, writeResult_not_inV h], .raised _ (.inr ⟨rfl, rd, rs1, rs2, .inr (.inr ⟨rfl, h⟩)⟩)⟩
  | div rd rs1 rs2 =>
    by_cases h : s.reg rs2 = 0
    · exact ⟨_, exec_div_zero h .., .raised _ (.inl ⟨rfl, rd, rs1, rs2, rfl, h⟩)⟩
    · exact ⟨_, exec_div_nonzero h .., .wrote rd _ rfl (fun hr _ _ => quot_inV (hr rs1) _) (by simp [Instr.opcode])⟩
  | str rbase off rval =>
    by_cases h : InA (s.reg rbase + off)
    · exact ⟨_, by rw [exec_str, storeCell_inA h], .stored rbase off rval rfl h⟩
    · exact ⟨_, by rw [exec_str, storeCell_not_inA h], .skipped (.inl ⟨rbase, off, rval, rfl, h⟩)⟩
  | ldr rdest rbase off =>
    by_cases h : InA (s.reg rbase + off)
    · exact ⟨_, by rw [exec_ldr, loadCell_inA h], .wrote rdest _ rfl (fun _ hm _ => hm _) (by simp [Instr.opcode])⟩
    · exact ⟨_, by rw [exec_ldr, loadCell_not_inA h], .skipped (.inr ⟨rdest, rbase, off, rfl, h⟩)⟩
  | jmp off => exact ⟨_, exec_jmp .., .jumped _ (.inl ⟨off, rfl, rfl⟩)⟩
  | jz rcond off =>
    by_cases h : s.reg rcond = 0
    · exact ⟨_, exec_jz_zero h .., .jumped _ (.inr ⟨rcond, off, rfl, by simp [h]⟩)⟩
    · exact ⟨_, exec_jz_nonzero h .., .jumped _ (.inr ⟨rcond, off, rfl, by simp [h]⟩)⟩

/-- If an instruction answers a next state, it got there in one of the ways of `Effect`. -/
theorem exec_cases {i : Instr} {s t : State} (h : exec i s = .next t) : Effect i s t := by
  obtain ⟨u, hu, he⟩ := exec_effect i s
  rw [hu] at h
  cases h
  exact he

/-- What every instruction leaves alone. -/
theorem Effect.kept {i : Instr} {s t : State} (h : Effect i s t) :
    t.steps = s.steps ∧ t.dec = s.dec ∧ t.run = s.run ∧ SameHost s t := by
  cases h <;> exact ⟨rfl, rfl, rfl, rfl, rfl, rfl, rfl, rfl⟩

/-! ### Pieces of state no instruction touches -/

/-- `f` replaces only pieces of the state that no instruction reads or writes: it commutes with every operation an
instruction is made of. -/
structure Untouched (f : State → State) : Prop where
  reg : ∀ s r, (f s).reg r = s.reg r
  memRead : ∀ s a, (f s).memRead a = s.memRead a
  pc : ∀ s, (f s).pc = s.pc
  setReg : ∀ s r v, (f s).setReg r v = f (s.setReg r v)
  setPc : ∀ s p, (f s).setPc p = f (s.setPc p)
  memWrite : ∀ s a v, (f s).memWrite a v = f (s.memWrite a v)
  setOutcome : ∀ s k, (f s).setOutcome k = f (s.setOutcome k)
  haltReturn : ∀ s v, (f s).haltReturn v = f (s.haltReturn v)

theorem untouched_withSteps (n : Nat) : Untouched (fun s => s.withSteps n) := by constructor <;> intros <;> rfl

theorem untouched_withDec (d : List (Nat × Instr)) : Untouched (fun s => s.withDec d) := by
  constructor <;> intros <;> rfl

theorem untouched_withLine (k : Nat) (line : ProgLine) : Untouched (fun s => s.withLine k line) := by
  constructor <;> intros <;> rfl

section Untouched

variable {f : State → State} (hf : Untouched f)
include hf

theorem Untouched.advance (s : State) : (f s).advance = f s.advance := by
  rw [State.advance, hf.pc, hf.setPc]; rfl

theorem Untouched.writeResult (rd : Reg) (v : Int) (s : State) :
    writeResult rd v (f s) = onNext f (writeResult rd v s) := by
  by_cases h : InV v
  · rw [writeResult_inV h, writeResult_inV h, hf.setReg, hf.advance]; rfl
  · rw [writeResult_not_inV h, writeResult_not_inV h, hf.setOutcome]; rfl

/-- An instruction run at the state with such a piece replaced gives its own result with the piece replaced. -/
theorem exec_untouched (i : Instr) (s : State) : exec i (f s) = onNext f (exec i s) := by
  cases i with
  | mov rd imm => rw [exec_mov, exec_mov, hf.setReg, hf.advance]; rfl
  | ret rs => rw [exec_ret, exec_ret, hf.reg, hf.haltReturn]; rfl
  | add rd rs1 rs2 => rw [exec_add, exec_add, hf.reg, hf.reg, hf.writeResult]
  | sub rd rs1 rs2 => rw [exec_sub, exec_sub, hf.reg, hf.reg, hf.writeResult]
  | mul rd rs1 rs2 => rw [exec_mul, exec_mul, hf.reg, hf.reg, hf.writeResult]
  | div rd rs1 rs2 =>
    by_cases h : s.reg rs2 = 0
    · rw [exec_div_zero h, exec_div_zero ((hf.reg s rs2).trans h), hf.setOutcome]; rfl
    · rw [exec_div_nonzero h, exec_div_nonzero ((hf.reg s rs2).symm ▸ h), hf.reg, hf.reg, hf.setReg, hf.advance]; rfl
  | str rbase off rval =>
    rw [exec_str, exec_str, hf.reg, hf.reg]
    by_cases h : InA (s.reg rbase + off)
    · rw [storeCell_inA h, storeCell_inA h, hf.memWrite, hf.advance]; rfl
    · rw [storeCell_not_inA h, storeCell_not_inA h, hf.advance]; rfl
  | ldr rdest rbase off =>
    rw [exec_ldr, exec_ldr, hf.reg]
    by_cases h : InA (s.reg rbase + off)
    · rw [loadCell_inA h, loadCell_inA h, hf.memRead, hf.setReg, hf.advance]; rfl
    · rw [loadCell_not_inA h, loadCell_not_inA h, hf.advance]; rfl
  | jmp off => rw [exec_jmp, exec_jmp, hf.pc, hf.setPc]; rfl
  | jz rcond off =>
    by_cases h : s.reg rcond = 0
    · rw [exec_jz_zero h, exec_jz_zero ((hf.reg s rcond).trans h), hf.pc, hf.setPc]; rfl
    · rw [exec_jz_nonzero h, exec_jz_nonzero ((hf.reg s rcond).symm ▸ h), hf.advance]; rfl

end Untouched

end Sys2Proof.Machine
end

