-- ==== Sys2Proof/Laws/PerInstr.lean ====
section
/-!
SUPPORT. Laws/PerInstr.lean: facts about every instruction as syntax, one lemma per constructor.
-/

namespace Sys2Proof.Laws

/-- The word of an instruction lies in its opcode's row. -/
def EncodeMatchesRow.Statement (i : Instr) : Prop := (rowOf i.opcode).matches (encode i) = true

theorem EncodeMatchesRow.mov (rd : Reg) (imm : Int) : EncodeMatchesRow.Statement (.mov rd imm) :=
  decide_eq_true (layoutRI_mask 0 (regBits rd) (immBits imm))
theorem EncodeMatchesRow.ret (rs : Reg) : EncodeMatchesRow.Statement (.ret rs) :=
  decide_eq_true (layoutR_mask 1 (regBits rs))
theorem EncodeMatchesRow.add (rd rs1 rs2 : Reg) : EncodeMatchesRow.Statement (.add rd rs1 rs2) :=
  decide_eq_true (layoutRRR_mask 2 (regBits rd) (regBits rs1) (regBits rs2))
theorem EncodeMatchesRow.sub (rd rs1 rs2 : Reg) : EncodeMatchesRow.Statement (.sub rd rs1 rs2) :=
  decide_eq_true (layoutRRR_mask 3 (regBits rd) (regBits rs1) (regBits rs2))
theorem EncodeMatchesRow.mul (rd rs1 rs2 : Reg) : EncodeMatchesRow.Statement (.mul rd rs1 rs2) :=
  decide_eq_true (layoutRRR_mask 4 (regBits rd) (regBits rs1) (regBits rs2))
theorem EncodeMatchesRow.div (rd rs1 rs2 : Reg) : EncodeMatchesRow.Statement (.div rd rs1 rs2) :=
  decide_eq_true (layoutRRR_mask 5 (regBits rd) (regBits rs1) (regBits rs2))
theorem EncodeMatchesRow.str (rbase : Reg) (off : Int) (rval : Reg) :
    EncodeMatchesRow.Statement (.str rbase off rval) :=
  decide_eq_true (layoutRRI_mask 6 (regBits rbase) (regBits rval) (immBits off))
theorem EncodeMatchesRow.ldr (rdest rbase : Reg) (off : Int) : EncodeMatchesRow.Statement (.ldr rdest rbase off) :=
  decide_eq_true (layoutRRI_mask 7 (regBits rdest) (regBits rbase) (immBits off))
theorem EncodeMatchesRow.jmp (off : Int) : EncodeMatchesRow.Statement (.jmp off) :=
  decide_eq_true (layoutI_mask 8 (immBits off))
theorem EncodeMatchesRow.jz (rcond : Reg) (off : Int) : EncodeMatchesRow.Statement (.jz rcond off) :=
  decide_eq_true (layoutRI_mask 9 (regBits rcond) (immBits off))

end Sys2Proof.Laws
end

