-- ==== Sys2Proof/Laws/Step.lean ====
section
/-!
SUPPORT. Laws/Step.lean: what one step can do, said once: an inversion lemma and the equations it rests on.
-/

namespace Sys2Proof.Machine

/-- How the step finds its instruction: in the cache, or by the first decode of the line. `s'` is the state execute sees. -/
inductive Visited (s : State) (i : Instr) : State → Prop where
  | hit (h : s.cached s.pc.toNat = some i) : Visited s i s
  | miss (h : s.cached s.pc.toNat = none) (hd : decodeLine (s.fetchLine s.pc.toNat) = .ok i) :
      Visited s i (s.cacheInstr s.pc.toNat i)

/-- Every way in which a running state leads to its next state. -/
inductive StepCase (s : State) : State → Prop where
  | outOfBounds (h : ¬ s.InBounds) : StepCase s (s.setOutcome .noReturn)
  | limit (hb : s.InBounds) (h : s.LimitReached) : StepCase s (s.setOutcome .stepLimitExceeded)
  | undecodable (hb : s.InBounds) (hl : ¬ s.LimitReached) (hc : s.cached s.pc.toNat = none) (e : DecodeReject)
      (h : decodeLine (s.fetchLine s.pc.toNat) = .error e) : StepCase s (s.setOutcome .invalidInstruction)
  | ran (hb : s.InBounds) (hl : ¬ s.LimitReached) (i : Instr) (s' u : State) (hv : Visited s i s')
      (hx : exec i s' = .next u) : StepCase s u.countIfCompleted

theorem step_not_running {s : State} (h : s.outcome ≠ .running) : step s = .fault .noStepEnabled := by
  simp only [step, engineStep, if_neg h]

theorem step_outOfBounds {s : State} (hr : s.outcome = .running) (h : ¬ s.InBounds) :
    step s = .next (s.setOutcome .noReturn) := by
  simp only [step, engineStep, if_pos hr, if_neg h, raise]

theorem step_limit {s : State} (hr : s.outcome = .running) (hb : s.InBounds) (h : s.LimitReached) :
    step s = .next (s.setOutcome .stepLimitExceeded) := by
  simp only [step, engineStep, if_pos hr, if_pos hb, if_pos h, raise]

theorem step_checked {s : State} (hr : s.outcome = .running) (hb : s.InBounds) (hl : ¬ s.LimitReached) :
    step s = decodeAndExecute s := by
  simp only [step, engineStep, if_pos hr, if_pos hb, if_neg hl]

theorem visit_hit {s : State} {k : Nat} {i : Instr} (h : s.cached k = some i) : s.visit k = .ok (i, s) := by
  simp only [State.visit, h]

theorem visit_miss {s : State} {k : Nat} {i : Instr} (h : s.cached k = none) (hd : decodeLine (s.fetchLine k) = .ok i) :
    s.visit k = .ok (i, s.cacheInstr k i) := by
  simp only [State.visit, h, hd]

theorem visit_error {s : State} {k : Nat} {e : DecodeReject} (h : s.cached k = none)
    (hd : decodeLine (s.fetchLine k) = .error e) : s.visit k = .error e := by
  simp only [State.visit, h, hd]

theorem step_undecodable {s : State} (hr : s.outcome = .running) (hb : s.InBounds) (hl : ¬ s.LimitReached)
    (hc : s.cached s.pc.toNat = none) {e : DecodeReject} (hd : decodeLine (s.fetchLine s.pc.toNat) = .error e) :
    step s = .next (s.setOutcome .invalidInstruction) := by
  rw [step_checked hr hb hl]
  simp only [decodeAndExecute, visit_error hc hd, raise]

theorem step_ran {s s' : State} {i : Instr} (hr : s.outcome = .running) (hb : s.InBounds) (hl : ¬ s.LimitReached)
    (hv : Visited s i s') : step s = onNext State.countIfCompleted (exec i s') := by
  rw [step_checked hr hb hl]
  cases hv with
  | hit h => simp only [decodeAndExecute, visit_hit h]
  | miss h hd => simp only [decodeAndExecute, visit_miss h hd]

/-- A running state has a next state, reached in one of the ways of `StepCase`. -/
theorem step_case {s : State} (hr : s.outcome = .running) : ∃ t, step s = .next t ∧ StepCase s t := by
  by_cases hb : s.InBounds
  · by_cases hl : s.LimitReached
    · exact ⟨_, step_limit hr hb hl, .limit hb hl⟩
    · have run : ∀ i s', Visited s i s' → ∃ t, step s = .next t ∧ StepCase s t := by
        intro i s' hv
        obtain ⟨u, hu, -⟩ := exec_effect i s'
        exact ⟨_, by rw [step_ran hr hb hl hv, hu, onNext_next], .ran hb hl i s' u hv hu⟩
      cases hc : s.cached s.pc.toNat with
      | some i => exact run i s (.hit hc)
      | none =>
        cases hd : decodeLine (s.fetchLine s.pc.toNat) with
        | error e => exact ⟨_, step_undecodable hr hb hl hc hd, .undecodable hb hl hc e hd⟩
        | ok i => exact run i _ (.miss hc hd)
  · exact ⟨_, step_outOfBounds hr hb, .outOfBounds hb⟩

/-- If the step answers a next state, the state was running and the step went in one of the ways of `StepCase`. -/
theorem step_cases {s t : State} (h : step s = .next t) : s.outcome = .running ∧ StepCase s t := by
  have hr : s.outcome = .running := by
    by_contra hn
    rw [step_not_running hn] at h
    cases h
  obtain ⟨u, hu, hc⟩ := step_case hr
  rw [hu] at h
  cases h
  exact ⟨hr, hc⟩

/-- The state execute sees differs from the state of the step in the cache alone. -/
theorem Visited.kept {s s' : State} {i : Instr} (h : Visited s i s') :
    s'.pc = s.pc ∧ s'.x = s.x ∧ s'.mem = s.mem ∧ s'.outcome = s.outcome ∧ s'.steps = s.steps ∧ s'.run = s.run ∧
      s'.retval = s.retval ∧ SameHost s s' := by
  cases h <;> exact ⟨rfl, rfl, rfl, rfl, rfl, rfl, rfl, rfl, rfl, rfl, rfl, rfl⟩

/-- Counting changes nothing but the step counter. -/
theorem countIfCompleted_kept (s : State) :
    s.countIfCompleted.pc = s.pc ∧ s.countIfCompleted.x = s.x ∧ s.countIfCompleted.mem = s.mem ∧
      s.countIfCompleted.outcome = s.outcome ∧ s.countIfCompleted.dec = s.dec ∧ s.countIfCompleted.run = s.run ∧
      s.countIfCompleted.retval = s.retval ∧ SameHost s s.countIfCompleted := by
  unfold State.countIfCompleted
  split <;> exact ⟨rfl, rfl, rfl, rfl, rfl, rfl, rfl, rfl, rfl, rfl, rfl, rfl⟩

/-! ### Runs -/

theorem core_run_next {M : Host.Core} {n : Nat} {s t : M.State} (h : M.step s = .next t) :
    M.run (n + 1) s = M.run n t := by
  simp only [Host.Core.run, h]

theorem core_run_fault {M : Host.Core} {n : Nat} {s : M.State} {e : M.Fault} (h : M.step s = .fault e) :
    M.run (n + 1) s = .fault e := by
  simp only [Host.Core.run, h]

/-- A run peels off its first step. -/
theorem run_next {n : Nat} {s t : State} (h : step s = .next t) :
    Host.Core.run Sys2Proof.core (n + 1) s = Host.Core.run Sys2Proof.core n t :=
  core_run_next (M := Sys2Proof.core) h

/-- A run from a state with no step enabled stops there. -/
theorem run_fault {n : Nat} {s : State} {e : Fault} (h : step s = .fault e) :
    Host.Core.run Sys2Proof.core (n + 1) s = .fault e :=
  core_run_fault (M := Sys2Proof.core) h

end Sys2Proof.Machine
end

