-- ==== Sys2Proof/Tests/Slice0.lean ====
section
/-!
SUPPORT. Tests/Slice0.lean: the model's own tests. Every expected value is the spec's: the words and lines of 30_encoding.md R82
and 95_test_vectors.md, and the rule each test names. The witnesses show that the hypotheses of the statements can be met.
-/

namespace Sys2Proof.Tests

open Sys2Proof Sys2Proof.Machine

/-! ### Small states -/

/-- A line of text. -/
def ln (line : String) : ProgLine := .text line.toList

/-- The lines of a program, numbered from `k` on. -/
def numbered (k : Nat) : List ProgLine → Program
  | [] => []
  | l :: ls => (k, l) :: numbered (k + 1) ls

/-- A run of these lines that has just started. -/
def started (lines : List ProgLine) (limit : Option Nat) : State :=
  { State.reset with run := { lines := numbered 0 lines, n := lines.length, limit := limit } }

/-- Some registers set. -/
def withRegs : List (Reg × Int) → State → State
  | [], s => s
  | (r, v) :: rest, s => withRegs rest (s.setReg r v)

/-- A run of one line with some registers set. -/
def one (line : String) (regs : List (Reg × Int)) : State := withRegs regs (started [ln line] none)

/-- The state after one step; the state itself where there is none. -/
def stepped (s : State) : State :=
  match step s with
  | .next t => t
  | .fault _ => s
  | .refused _ => s

/-- The instruction of a line of text, if it decodes. -/
def read (line : String) : Option Instr := (decodeText line.toList).toOption

/-- The instruction of a word, if it is valid. -/
def readWord (w : InstrWord) : Option Instr := (decodeWord w).toOption

/-! ### WellFormed refuses what is out of range (30_encoding.md R65) -/

theorem test_wf_refuses_mov_immediate :
    ¬ (Instr.mov 1 65536).WellFormed ∧ ¬ (Instr.mov 1 (-65536)).WellFormed ∧ (Instr.mov 1 (-65535)).WellFormed := by decide

theorem test_wf_refuses_str_offset :
    ¬ (Instr.str 1 65536 2).WellFormed ∧ ¬ (Instr.str 1 (-65536) 2).WellFormed ∧ (Instr.str 1 65535 2).WellFormed := by decide

theorem test_wf_refuses_ldr_offset :
    ¬ (Instr.ldr 1 2 65536).WellFormed ∧ ¬ (Instr.ldr 1 2 (-65536)).WellFormed ∧ (Instr.ldr 1 2 65535).WellFormed := by decide

theorem test_wf_refuses_jmp_offset :
    ¬ (Instr.jmp 65536).WellFormed ∧ ¬ (Instr.jmp (-65536)).WellFormed ∧ (Instr.jmp (-65535)).WellFormed := by decide

theorem test_wf_refuses_jz_offset :
    ¬ (Instr.jz 1 65536).WellFormed ∧ ¬ (Instr.jz 1 (-65536)).WellFormed ∧ (Instr.jz 1 (-65535)).WellFormed := by decide

/-! ### Words written out bit by bit: op, ra, rb, and the rest (30_encoding.md R80, R82) -/

theorem test_word_mov : readWord 0b0000_00001_000000_11111111111111101 = some (.mov 1 (-3)) := by decide
theorem test_word_ret : readWord 0b0001_11111_00000000000000000000000 = some (.ret 31) := by decide
theorem test_word_add : readWord 0b0010_00001_00010_0000000000000_00011 = some (.add 1 2 3) := by decide
theorem test_word_sub : readWord 0b0011_11111_00000_0000000000000_11111 = some (.sub 31 0 31) := by decide
theorem test_word_mul : readWord 0b0100_00100_01000_0000000000000_10000 = some (.mul 4 8 16) := by decide
theorem test_word_div : readWord 0b0101_00001_00010_0000000000000_00000 = some (.div 1 2 0) := by decide
theorem test_word_str : readWord 0b0110_00001_00010_0_10000000000000001 = some (.str 1 (-65535) 2) := by decide
theorem test_word_ldr : readWord 0b0111_01000_00011_0_01111111111111111 = some (.ldr 8 3 65535) := by decide
theorem test_word_jmp : readWord 0b1000_00000000000_10000000000000001 = some (.jmp (-65535)) := by decide
theorem test_word_jz : readWord 0b1001_00111_000000_11111111111111110 = some (.jz 7 (-2)) := by decide

/-- 95_test_vectors.md section 2.2, the invalid words. -/
theorem test_word_invalid :
    [0x00010000, 0x00020000, 0xA0000000, 0xF0000000, 0x20000020, 0x10000001, 0x10040000, 0x80800000, 0x9FFEFFFF, 0x7FFF0000,
      0xFFFFFFFF].all (fun w => readWord w == none) = true := by decide

/-- 95_test_vectors.md section 2.2, the valid words. -/
theorem test_word_valid :
    [(0x0081FFFD, Instr.mov 1 (-3)), (0x2000001F, .add 0 0 31), (0x80010001, .jmp (-65535)), (0x8001FFFF, .jmp (-1)),
      (0x9F80FFFF, .jz 31 65535), (0x60000000, .str 0 0 0), (0x7FFDFFFF, .ldr 31 31 (-1))].all
      (fun p => readWord p.1 == some p.2) = true := by decide

/-- Why a word is rejected, by name. -/
theorem test_word_reject_names :
    decodeWord 0x00010000 = .error .reservedImmediate ∧ decodeWord 0xA0000000 = .error .noWordRow := by decide

/-! ### Lines of text (95_test_vectors.md section 2.1) -/

theorem test_text_valid :
    [("MOV R1 5", Instr.mov 1 5, 0x00800005#32), ("MOV R31 65535", .mov 31 65535, 0x0F80FFFF),
      ("MOV R0 -65535", .mov 0 (-65535), 0x00010001), ("JMP 65535", .jmp 65535, 0x8000FFFF),
      ("STR R1 -65535 R2", .str 1 (-65535) 2, 0x60890001), ("LDR R8 R3 65535", .ldr 8 3 65535, 0x740CFFFF),
      ("ADD R1 R2 R3", .add 1 2 3, 0x20880003), ("SUB R31 R0 R31", .sub 31 0 31, 0x3F80001F),
      ("MUL R1 R1 R1", .mul 1 1 1, 0x40840001), ("DIV R1 R2 R0", .div 1 2 0, 0x50880000),
      ("JZ R7 -2", .jz 7 (-2), 0x9381FFFE), ("RET R31", .ret 31, 0x1F800000)].all
      (fun p => read p.1 == some p.2.1 && encode p.2.1 == p.2.2) = true := by decide

/-- The lines that rest on the spec's decisions D4, D5 and D6. -/
theorem test_text_valid_by_decision :
    [("  MOV\tR1   7  ", Instr.mov 1 7), ("MOV R1 +5", .mov 1 5), ("MOV R1 007", .mov 1 7), ("MOV R1 -0", .mov 1 0),
      ("MOV R01 1", .mov 1 1), ("MOV R+1 1", .mov 1 1)].all (fun p => read p.1 == some p.2) = true := by decide

theorem test_text_invalid_mnemonic_or_register :
    ["MOV R32 1", "MOV R-1 1", "mov R1 1", "Mov R1 1", "NOP", "BOGUS R1", "", "   ", "MOV r1 1", "MOV R 1", "MOV RR1 1",
      "MOV R1x 1", "MOV,R1,1"].all (fun t => read t == none) = true := by decide

theorem test_text_invalid_operands :
    ["MOV R1 65536", "MOV R1 -65536", "MOV R1 99999999999999999999", "RET", "RET R1 R2", "MOV R1", "JMP 1 2", "MOV R1 R2",
      "ADD R1 R2 3", "JMP R1", "JZ R1 70000", "JMP 65536", "MOV R1 0x10", "MOV R1 5.0", "MOV R1 1e3", "MOV R1 1_000",
      "MOV R1 1 ; c"].all (fun t => read t == none) = true := by decide

/-- The host's table words: a valid one and one of a reserved opcode number. -/
theorem test_table_word :
    decodeTableWord 32 0x0081FFFD = some (.mov 1 (-3)) ∧ decodeTableWord 32 0xA0000000 = none := by decide

/-! ### One step of each instruction (95_test_vectors.md sections 2.3 to 2.5) -/

theorem test_mov : (stepped (one "MOV R0 5" [])).reg 0 = 5 ∧ (stepped (one "MOV R0 5" [])).pc = 1 := by decide
theorem test_mov_smallest : (stepped (one "MOV R1 -65535" [(1, 12)])).reg 1 = -65535 := by decide
theorem test_ret : observe (stepped (one "RET R5" [(5, -65535)])) = (.returned, some (-65535)) := by decide
theorem test_ret_keeps_pc_and_counts :
    (stepped (one "RET R0" [])).pc = 0 ∧ (stepped (one "RET R0" [])).steps = 1 := by decide
theorem test_add_to_the_top : (stepped (one "ADD R3 R1 R2" [(1, 65535), (2, 0)])).reg 3 = 65535 := by decide
theorem test_add_overflows :
    (stepped (one "ADD R3 R1 R2" [(1, -65535), (2, -1)])).outcome = .arithmeticOverflow ∧
      (stepped (one "ADD R3 R1 R2" [(1, -65535), (2, -1)])).pc = 0 := by decide
theorem test_sub : (stepped (one "SUB R3 R1 R2" [(1, 5), (2, 7)])).reg 3 = -2 := by decide
theorem test_sub_overflows :
    (stepped (one "SUB R3 R1 R2" [(1, -65535), (2, 1)])).outcome = .arithmeticOverflow := by decide
theorem test_mul_to_the_top : (stepped (one "MUL R3 R1 R2" [(1, 255), (2, 257)])).reg 3 = 65535 := by decide
theorem test_mul_overflows : (stepped (one "MUL R3 R1 R2" [(1, -256), (2, 256)])).outcome = .arithmeticOverflow := by decide
theorem test_div_truncates :
    (stepped (one "DIV R3 R1 R2" [(1, -7), (2, 2)])).reg 3 = -3 ∧
      (stepped (one "DIV R3 R1 R2" [(1, 7), (2, -2)])).reg 3 = -3 := by decide
theorem test_div_by_zero :
    (stepped (one "DIV R2 R1 R0" [(1, 5)])).outcome = .divisionByZero ∧
      (stepped (one "DIV R2 R1 R0" [(1, 5)])).steps = 0 := by decide
theorem test_str : (stepped (one "STR R1 -100 R2" [(1, 100), (2, -65535)])).mem = [(0, -65535)] := by decide
theorem test_str_above_the_top :
    (stepped (one "STR R1 1 R2" [(1, 65535), (2, 6)])).mem = [] ∧
      (stepped (one "STR R1 1 R2" [(1, 65535), (2, 6)])).pc = 1 := by decide
theorem test_ldr_same_register : (stepped ((one "LDR R2 R2 5" [(2, 5)]).memWrite 10 42)).reg 2 = 42 := by decide
theorem test_ldr_above_the_top_keeps :
    (stepped (one "LDR R8 R3 65535" [(3, 1), (8, -3)])).reg 8 = -3 ∧
      (stepped (one "LDR R8 R3 65535" [(3, 1), (8, -3)])).pc = 1 := by decide
theorem test_jmp_below_zero :
    (stepped (one "JMP -1" [])).pc = -1 ∧ (stepped (stepped (one "JMP -1" []))).outcome = .noReturn := by decide
theorem test_jmp_to_itself : (stepped (one "JMP 0" [])).pc = 0 ∧ (stepped (one "JMP 0" [])).outcome = .running := by decide
theorem test_jz_taken : (stepped (one "JZ R5 -2" [])).pc = -2 := by decide
theorem test_jz_minus_one_not_taken : (stepped (one "JZ R5 5" [(5, -1)])).pc = 1 := by decide

/-! ### The engine's checks (95_test_vectors.md section 2.6) -/

theorem test_bounds_before_limit : (stepped (started [] (some 0))).outcome = .noReturn := by decide
theorem test_limit_before_decode : (stepped (started [ln "BOGUS"] (some 0))).outcome = .stepLimitExceeded := by decide
theorem test_invalid_line : (stepped (started [ln "BOGUS"] none)).outcome = .invalidInstruction := by decide
theorem test_decode_is_cached : (stepped (one "JMP 0" [])).dec = [(0, .jmp 0)] := by decide
theorem test_unreached_line_is_not_decoded :
    (stepped (started [ln "RET R1", ln "BOGUS"] none)).outcome = .returned := by decide

/-! ### Witnesses: the hypotheses of the statements can be met -/

theorem witness_word_decode_inverts_encode :
    (Instr.mov 31 (-65535)).WellFormed ∧ (Instr.str 0 65535 31).WellFormed := by decide

theorem witness_word_encode_inverts_decode : decodeWord 0x0081FFFD = .ok (.mov 1 (-3)) := by decide

/-- A running state at an invalid word. -/
def atInvalidWord : State := started [.word 0x00010000] none

/-- Both ends of the reserved opcode numbers, and a line that decodes. -/
theorem witness_word_is_valid :
    ((0xA0000000 : InstrWord).extractLsb' 28 4).toNat = 10 ∧ ((0xFFFFFFFF : InstrWord).extractLsb' 28 4).toNat = 15 ∧
    opRows ≠ [] ∧ decodeText "JMP -1".toList = .ok (.jmp (-1)) :=
  ⟨by simp, by simp, by decide, by decide⟩

theorem witness_invalid_word_in_store :
    atInvalidWord.outcome = .running ∧ atInvalidWord.InBounds ∧ ¬ atInvalidWord.LimitReached ∧
    atInvalidWord.cached atInvalidWord.pc.toNat = none ∧ atInvalidWord.fetchLine atInvalidWord.pc.toNat = .word 0x00010000 ∧
    decodeWord 0x00010000 = .error .reservedImmediate :=
  ⟨rfl, by decide, by decide, rfl, rfl, by decide⟩

/-- The premise of the first clause of that statement: the one row of a word with an immediate. -/
theorem witness_word_row : ∃ row ∈ opRows, (0x00010000 : InstrWord) &&& row.mask = row.pat ∧ row.format = .ri := by decide

theorem witness_text_decode_inverts_encode : (Instr.jz 31 65535).WellFormed ∧ (Instr.ldr 0 31 (-65535)).WellFormed := by decide

theorem witness_decoded_line : decodeText "JZ R7 -2".toList = .ok (.jz 7 (-2)) := by decide

theorem witness_tokens :
    isSpace '\t' = true ∧ (['R', 'E', 'T'] : Text) ≠ [] ∧ (∀ c ∈ (['R', 'E', 'T'] : Text), isSpace c = false) ∧
      ∀ c ∈ ([' ', '\t'] : Text), isSpace c = true :=
  ⟨by decide, by decide, by simp [isSpace], by simp [isSpace]⟩

/-- Literals at the ends of the digit range, with each sign. -/
theorem witness_literals :
    literalValue "09".toList = some 9 ∧ literalValue "+0".toList = some 0 ∧ literalValue "-90".toList = some (-90) ∧
      literalValue "".toList = none ∧ literalValue "+".toList = none := by decide

/-- A line whose operands all pass, at the ends of their ranges. -/
theorem witness_line_operands :
    registerIndex "R31".toList = some 31 ∧ literalValue "-65535".toList = some (-65535) ∧
      tokens "JZ R31 -65535".toList = Opcode.jz.mnemonic :: ["R31".toList, "-65535".toList] := by decide

theorem witness_ret : InV ((withRegs [(5, -65535)] State.reset).reg 5) ∧ InV ((withRegs [(5, 65535)] State.reset).reg 5) := by
  decide

/-- Each operation with a result on the last value of V and with one just outside it. -/
theorem witness_add_sub_mul :
    (let s := withRegs [(1, 65534), (2, 1), (3, -65535), (4, 65535), (5, 2)] State.reset
     InV (s.reg 1 + s.reg 2) ∧ ¬ InV (s.reg 4 + s.reg 2) ∧ InV (s.reg 3 - s.reg 0) ∧ ¬ InV (s.reg 3 - s.reg 2) ∧
       InV (s.reg 3 * s.reg 2) ∧ ¬ InV (s.reg 4 * s.reg 5)) := by decide

theorem witness_div :
    (withRegs [(1, -65535), (2, -1)] State.reset).reg 2 ≠ 0 ∧ InV ((withRegs [(1, -65535), (2, -1)] State.reset).reg 1) := by decide

theorem witness_div_by_zero : (State.reset).reg 0 = 0 := by decide

/-- The two ends of the addresses, and one address beyond each. -/
theorem witness_str :
    (withRegs [(1, 100)] State.reset).effAddr 1 (-100) = (0 : Nat) ∧
    (withRegs [(1, 100)] State.reset).effAddr 1 65435 = (65535 : Nat) ∧
    (withRegs [(1, 100)] State.reset).effAddr 1 (-101) < 0 ∧
    65535 < (withRegs [(1, 100)] State.reset).effAddr 1 65436 := by decide

theorem witness_ldr :
    (withRegs [(1, 1)] State.reset).reg 1 + (-1) = (0 : Nat) ∧ (withRegs [(1, 1)] State.reset).reg 1 + 65534 = (65535 : Nat) ∧
    (withRegs [(1, 1)] State.reset).reg 1 + (-2) < 0 ∧ 65535 < (withRegs [(1, 1)] State.reset).reg 1 + 65535 := by decide

theorem witness_jz : (withRegs [(1, -1)] State.reset).reg 0 = 0 ∧ (withRegs [(1, -1)] State.reset).reg 1 ≠ 0 := by decide

theorem witness_named_registers :
    (∃ t, exec (.mov 1 5) State.reset = .next t ∧ t.reg 1 ≠ State.reset.reg 1) ∧
    (∃ t, (3 : Reg) ∉ readRegs (.add 3 1 2) ∧ exec (.add 3 1 2) State.reset = .next t) ∧
    (∃ t, State.reset.outcome = .running ∧ exec (.div 3 0 0) State.reset = .next t ∧ t.outcome.isFailure = true) ∧
    (∃ t, exec (.ldr 3 0 (-1)) State.reset = .next t ∧ ¬ InA (State.reset.reg 0 + -1)) :=
  ⟨⟨_, rfl, by decide⟩, ⟨_, by decide, rfl⟩, ⟨_, rfl, rfl, by decide⟩, ⟨_, rfl, by decide⟩⟩

theorem witness_only_str_writes :
    (∃ t, exec (.str 1 0 1) (withRegs [(1, 65535)] State.reset) = .next t ∧ t.memRead 65535 ≠ State.reset.memRead 65535) ∧
    (∃ t, (Instr.str 1 0 1).opcode ≠ .ldr ∧ exec (.str 1 0 1) State.reset = .next t) ∧
    (∃ t, step (one "STR R1 0 R1" [(1, 9)]) = .next t ∧ t.memRead 9 ≠ (one "STR R1 0 R1" [(1, 9)]).memRead 9) :=
  ⟨⟨_, rfl, by decide⟩, ⟨_, by decide, rfl⟩, ⟨_, rfl, by decide⟩⟩

/-- The four ways in which a step runs no LDR: out of bounds, at the limit, at another instruction, at an undecodable line. -/
theorem witness_step_runs_no_load :
    (∃ t, ¬ (started [] none).InBounds ∧ step (started [] none) = .next t) ∧
    (∃ t, (started [ln "LDR R1 R1 0"] (some 0)).LimitReached ∧ step (started [ln "LDR R1 R1 0"] (some 0)) = .next t) ∧
    (∃ t, (one "STR R1 0 R1" [(1, 9)]).cached 0 = none ∧
      decodeLine ((one "STR R1 0 R1" [(1, 9)]).fetchLine 0) = .ok (.str 1 0 1) ∧ step (one "STR R1 0 R1" [(1, 9)]) = .next t) ∧
    (∃ t, (one "BOGUS" []).cached 0 = none ∧ decodeLine ((one "BOGUS" []).fetchLine 0) = .error .unknownMnemonic ∧
      step (one "BOGUS" []) = .next t) :=
  ⟨⟨_, by decide, rfl⟩, ⟨_, by decide, rfl⟩, ⟨_, rfl, by decide, rfl⟩, ⟨_, rfl, by decide, rfl⟩⟩

theorem witness_next_pc :
    (∃ t, exec (.jmp (-1)) State.reset = .next t ∧ t.outcome = State.reset.outcome ∧ State.reset.outcome = .running) ∧
    (∃ t, exec (.ret 0) State.reset = .next t ∧ t.outcome ≠ .running ∧ (Instr.ret 0).opcode = .ret) ∧
    (∃ t, exec (.div 0 0 0) State.reset = .next t ∧ t.outcome ≠ .running) :=
  ⟨⟨_, rfl, by decide⟩, ⟨_, rfl, by decide⟩, ⟨_, rfl, by decide⟩⟩

theorem witness_only_arithmetic_raises :
    (∃ t, exec (.div 0 0 0) State.reset = .next t ∧ State.reset.outcome = .running ∧ t.outcome.isFailure = true) ∧
    (∃ t, exec (.mul 0 1 1) (withRegs [(1, 256)] State.reset) = .next t ∧ t.outcome = .arithmeticOverflow) :=
  ⟨⟨_, rfl, by decide⟩, ⟨_, rfl, by decide⟩⟩

theorem witness_operands_before_write :
    (let s := (withRegs [(1, 3), (2, 4)] State.reset).memWrite 3 9
     (∃ t, exec (.add 1 1 2) s = .next t ∧ InV (s.reg 1 + s.reg 2)) ∧
     (∃ t, exec (.sub 1 2 1) s = .next t ∧ InV (s.reg 2 - s.reg 1)) ∧
     (∃ t, exec (.mul 1 1 1) s = .next t ∧ InV (s.reg 1 * s.reg 1)) ∧ (∃ t, exec (.div 1 1 2) s = .next t ∧ s.reg 2 ≠ 0) ∧
     (∃ t, exec (.div 1 2 1) s = .next t ∧ s.reg 1 ≠ 0) ∧
     (∃ t, exec (.ldr 1 1 0) s = .next t ∧ s.reg 1 + 0 = (3 : Nat)) ∧
     (∃ t, exec (.str 1 65532 1) s = .next t ∧ s.reg 1 + 65532 = (65535 : Nat))) :=
  ⟨⟨_, rfl, by decide⟩, ⟨_, rfl, by decide⟩, ⟨_, rfl, by decide⟩, ⟨_, rfl, by decide⟩, ⟨_, rfl, by decide⟩,
    ⟨_, rfl, by decide⟩, ⟨_, rfl, by decide⟩⟩

/-- Two spellings of one address, with no store in between. -/
theorem witness_load_after_store :
    (let s := withRegs [(1, 65535), (2, 6)] State.reset
     InA (s.reg 1 + 0) ∧ ∃ t, exec (.str 1 0 2) s = .next t ∧ SameMem t t ∧ t.reg 0 + 65535 = s.reg 1 + 0) :=
  ⟨by decide, _, rfl, fun _ => rfl, by decide⟩

/-- A line not yet decoded, and one that is cached. -/
theorem witness_step_runs :
    (one "JMP 0" []).outcome = .running ∧ (one "JMP 0" []).InBounds ∧ ¬ (one "JMP 0" []).LimitReached ∧
    (one "JMP 0" []).cached 0 = none ∧ decodeLine ((one "JMP 0" []).fetchLine 0) = .ok (.jmp 0) ∧
    (stepped (one "JMP 0" [])).InBounds ∧ (stepped (one "JMP 0" [])).cached 0 = some (.jmp 0) := by decide

/-- One index below the first line, and the index just after the last. -/
theorem witness_pc_out_of_bounds :
    ((one "JMP 0" []).setPc (-1)).pc < 0 ∧ (((one "JMP 0" []).setPc 1).run.n : Int) ≤ ((one "JMP 0" []).setPc 1).pc ∧
      ((one "JMP 0" []).setPc 1).outcome = .running := by decide

theorem witness_step_limit :
    (started [ln "JMP 0"] (some 0)).outcome = .running ∧ (started [ln "JMP 0"] (some 0)).InBounds ∧
    (started [ln "JMP 0"] (some 0)).run.limit = some (started [ln "JMP 0"] (some 0)).steps ∧
    (∃ t, (one "JMP 0" []).run.limit = none ∧ step (one "JMP 0" []) = .next t) ∧
    (∃ t, (started [ln "JMP 0"] (some 1)).run.limit = some 1 ∧ (started [ln "JMP 0"] (some 1)).steps ≤ 1 ∧
      step (started [ln "JMP 0"] (some 1)) = .next t) :=
  ⟨rfl, by decide, rfl, ⟨_, rfl, rfl⟩, ⟨_, rfl, by decide, rfl⟩⟩

theorem witness_first_visit :
    ((started [ln "BOGUS"] none).outcome = .running ∧ (started [ln "BOGUS"] none).InBounds ∧
      ¬ (started [ln "BOGUS"] none).LimitReached ∧ (started [ln "BOGUS"] none).cached 0 = none ∧
      decodeLine ((started [ln "BOGUS"] none).fetchLine 0) = .error .unknownMnemonic) ∧
    (∃ t, step (one "JMP 0" []) = .next t ∧ t.cached 0 ≠ (one "JMP 0" []).cached 0) ∧
    (∃ t, step (one "JMP 0" []) = .next t ∧ ((1 : Nat) : Int) ≠ (one "JMP 0" []).pc) :=
  ⟨by decide, ⟨_, rfl, by decide⟩, ⟨_, rfl, by decide⟩⟩

/-- The four cases of the order of the checks: each with the checks before it passed. -/
theorem witness_first_failing_check :
    (∃ t, step (started [] none) = .next t ∧ ¬ (started [] none).InBounds) ∧
    (∃ t, step (started [ln "BOGUS"] (some 0)) = .next t ∧ (started [ln "BOGUS"] (some 0)).InBounds ∧
      (started [ln "BOGUS"] (some 0)).LimitReached) ∧
    (∃ t, step (started [ln "BOGUS"] none) = .next t ∧ (started [ln "BOGUS"] none).InBounds ∧
      ¬ (started [ln "BOGUS"] none).LimitReached ∧ (started [ln "BOGUS"] none).cached 0 = none ∧
      decodeLine ((started [ln "BOGUS"] none).fetchLine 0) = .error .unknownMnemonic) ∧
    (∃ t, step (one "RET R0" []) = .next t ∧ (one "RET R0" []).InBounds ∧ ¬ (one "RET R0" []).LimitReached ∧
      decodeLine ((one "RET R0" []).fetchLine 0) = .ok (.ret 0)) :=
  ⟨⟨_, rfl, by decide⟩, ⟨_, rfl, by decide⟩, ⟨_, rfl, by decide⟩, ⟨_, rfl, by decide⟩⟩

theorem witness_terminal :
    [OutcomeCode.idle, .returned, .invalidInstruction, .noReturn, .stepLimitExceeded, .divisionByZero, .arithmeticOverflow].all
      (fun o => decide ((State.reset.setOutcome o).outcome ≠ .running)) = true := by decide

theorem witness_failures :
    (∃ t, State.reset.outcome = .running ∧ exec (.div 0 0 0) State.reset = .next t ∧ t.outcome.isFailure = true) ∧
    (∃ t, step (one "DIV R0 R0 R0" []) = .next t ∧ t.outcome.isFailure = true) :=
  ⟨⟨_, rfl, rfl, by decide⟩, ⟨_, rfl, by decide⟩⟩

theorem witness_step_counter :
    (∃ t, step (one "RET R0" []) = .next t ∧ t.outcome = .returned) ∧
    (∃ t, step (one "JMP 0" []) = .next t ∧ t.outcome = .running) ∧
    (∃ t, step (started [] none) = .next t ∧ t.outcome.isFailure = true) ∧
    (∃ t, exec (.jmp 0) State.reset = .next t) ∧
    (∃ t, (one "RET R0" []).run.limit = none ∧ step (one "RET R0" []) = .next t) ∧
    (∃ t, (started [ln "JMP 0"] (some 2)).run.limit ≠ some (started [ln "JMP 0"] (some 2)).steps ∧
      (started [ln "JMP 0"] (some 2)).run.limit ≠ some 1 ∧ step (started [ln "JMP 0"] (some 2)) = .next t) :=
  ⟨⟨_, rfl, by decide⟩, ⟨_, rfl, by decide⟩, ⟨_, rfl, by decide⟩, ⟨_, rfl⟩, ⟨_, rfl, rfl⟩, ⟨_, by decide, by decide, rfl⟩⟩

theorem witness_progress : (one "JMP 0" []).outcome = .running := by decide

/-- A self-loop under a limit. -/
theorem witness_run_with_limit :
    (started [ln "JMP 0"] (some 2)).outcome = .running ∧ (started [ln "JMP 0"] (some 2)).run.limit = some 2 ∧
      (started [ln "JMP 0"] (some 2)).steps ≤ 2 := by decide

theorem witness_stores : ∃ t, step (one "STR R1 0 R2" [(2, 6)]) = .next t ∧ t.memRead 0 = 6 := ⟨_, rfl, by decide⟩

/-- The run of a self-loop once its line is cached. -/
theorem witness_cache_coherent : CacheCoherent (stepped (one "JMP 0" [])) := by
  have hd : (stepped (one "JMP 0" [])).dec = [(0, .jmp 0)] := by decide
  intro k i h
  simp only [State.cached, hd, Table.find] at h
  split at h
  · subst_vars
    cases h
    decide
  · cases h

/-- A run that has just started satisfies the invariant and has a next state. -/
theorem witness_invariant : RunInv (one "STR R1 -1 R1" [(1, 65535)]) ∧ ∃ t, step (one "STR R1 -1 R1" [(1, 65535)]) = .next t :=
  ⟨{ regsInV := by decide
     cellsInV := fun a => by rw [show State.memRead (one "STR R1 -1 R1" [(1, 65535)]) a = 0 from rfl]; decide
     memCanonical := by decide
     memAddresses := by decide
     cacheSorted := by decide
     cacheCoherent := fun k i h => by cases h
     pcRange := by decide
     stepsWithinLimit := fun k h => by cases h
     retvalInV := fun h => by cases h }, _, rfl⟩

theorem witness_host_moves :
    (∃ t, (State.reset.setOutcome .idle).outcome ≠ .running ∧ hostMove .start (State.reset.setOutcome .idle) = .next t) ∧
    (∃ t, hostMove (.writeStepLimitEn true) (State.reset.setOutcome .returned) = .next t ∧ t ≠ State.reset.setOutcome .returned) :=
  ⟨⟨_, by decide, rfl⟩, ⟨_, rfl, by decide⟩⟩

theorem witness_start : (State.reset.setOutcome .idle).outcome ≠ .running ∧ (State.reset.setOutcome .noReturn).outcome ≠ .running := by
  decide

/-- Two power-on states that differ in a register, a cell, the pc, PROG_LEN and RETVAL. -/
theorem witness_power_on :
    (let s := State.reset.setOutcome .idle
     let s' := { (((s.setReg 3 9).memWrite 4 5).setPc 7) with retval := 1, progLen := 2, stepLimitVal := 3 }
     IsPowerOn s ∧ IsPowerOn s' ∧ s'.store = s.store ∧ 0 ≤ Config.progLenMax ∧ s ≠ s') :=
  ⟨⟨rfl, rfl⟩, ⟨rfl, rfl⟩, rfl, Nat.zero_le _, by decide⟩

/-- Two different states with the same configuration, with a limit and without. -/
theorem witness_runs_depend :
    (let s := { State.reset with progLen := 1, store := [(0, ln "RET R1")], stepLimitEn := true, stepLimitVal := 1 }
     let s' := s.setReg 1 7
     s'.store = s.store ∧ s'.progLen = s.progLen ∧ s'.stepLimitEn = s.stepLimitEn ∧ s.stepLimitEn = true ∧
       s'.stepLimitVal = s.stepLimitVal ∧ Table.find 0 s.store = some (ln "RET R1") ∧ s ≠ s' ∧ ∃ t, Host.Core.run Sys2Proof.core 1 s.runStart = .next t) :=
  ⟨rfl, rfl, rfl, rfl, rfl, rfl, by decide, _, rfl⟩

theorem witness_host_cannot_disturb :
    State.reset.outcome = .running ∧ (∃ t, hostMove (.writeProgLen 3) State.reset = .next t) ∧
    (∃ t, (State.reset.setOutcome .returned).outcome ≠ .running ∧ HostCmd.writeStepLimitEn true ≠ .start ∧
      hostMove (.writeStepLimitEn true) (State.reset.setOutcome .returned) = .next t ∧ t.stepLimitEn = true) :=
  ⟨rfl, ⟨_, rfl⟩, ⟨_, by decide, by decide, rfl, rfl⟩⟩

/-- The empty program, with no limit and with the limit 0; PROG_LEN_MAX is open, so no longer program is known to fit. -/
theorem witness_load_sequence :
    (State.reset.setOutcome .idle).outcome ≠ .running ∧ ([] : List ProgLine).length ≤ Config.progLenMax ∧
    (∀ k, (none : Option Nat) = some k → k < 2 ^ Config.stepLimitBits) ∧
    (∀ k, some 0 = some k → k < 2 ^ Config.stepLimitBits) :=
  ⟨by decide, Nat.zero_le _, fun _ h => (by cases h), fun k h => by cases h; exact Nat.two_pow_pos _⟩

/-- The same for a program of one line, wherever PROG_LEN_MAX is at least 1. -/
theorem witness_load_sequence_one_line (h : 1 ≤ Config.progLenMax) :
    [ln "RET R1"].length ≤ Config.progLenMax ∧ (State.reset.setOutcome .returned).outcome ≠ .running := ⟨h, by decide⟩

theorem witness_outcomes : (State.reset.setOutcome .returned).outcome = .returned ∧ OutcomeCode.returned.code = 2 := by decide

/-- A line whose first token is no mnemonic, and register tokens at both ends of the range. -/
theorem witness_register_tokens :
    (tokens "mov R1 1".toList).head? = some "mov".toList ∧ decodeText "mov R1 1".toList = .error .unknownMnemonic ∧
      registerIndex "R0".toList = some 0 ∧ decodeOperand .reg "R31".toList = .ok (.reg 31) ∧
      registerIndex "R32".toList = some 32 := by decide

theorem witness_with_fetch_word :
    decodeTableWord 32 0x1F800000 = some (.ret 31) ∧ (stepped (State.reset.withFetchWord 32 0x1F800000)).outcome = .returned := by
  decide

end Sys2Proof.Tests
end

