-- ==== Sys2Proof/Proofs/StepCounter.lean ====
section
/-!
PROOFS. Proofs/StepCounter.lean: the step counter (10_state.md R30): what a step adds to it, and that nothing but the
step-limit check depends on its value.
-/

namespace Sys2Proof.Machine

/-! ### What a step adds to the counter -/

theorem State.countIfCompleted_steps (s : State) :
    s.countIfCompleted.steps = if s.outcome.isFailure then s.steps else s.steps + 1 := by
  cases h : s.outcome.isFailure with
  | true => rw [countIfCompleted_of_failure h, if_pos rfl]
  | false => rw [countIfCompleted_of_not_failure h]; rfl

/-- A step adds 1 exactly when the state it leads to is no failure. -/
theorem StepCase.steps {s t : State} (h : StepCase s t) :
    t.steps = if t.outcome.isFailure then s.steps else s.steps + 1 := by
  cases h with
  | outOfBounds _ => rfl
  | limit _ _ => rfl
  | undecodable _ _ _ _ _ => rfl
  | ran _ _ i s' u hv hx =>
    obtain ⟨-, -, -, -, hs', -⟩ := hv.kept
    obtain ⟨hu, -⟩ := (exec_cases hx).kept
    obtain ⟨-, -, -, hout, -⟩ := countIfCompleted_kept u
    rw [State.countIfCompleted_steps, hout, hu, hs']

theorem isFailure_of_running_or_returned {o : OutcomeCode} (h : o = .running ∨ o = .returned) : o.isFailure = false := by
  rcases h with rfl | rfl <;> rfl

/-! ### Another value of the counter -/

theorem exec_withSteps {i : Instr} {s t : State} (h : exec i s = .next t) (n : Nat) :
    exec i (s.withSteps n) = .next (t.withSteps n) := by
  rw [exec_untouched (untouched_withSteps n), h, onNext_next]

theorem Visited.withSteps {s s' : State} {i : Instr} (h : Visited s i s') (n : Nat) :
    Visited (s.withSteps n) i (s'.withSteps n) := by
  cases h with
  | hit h => exact .hit h
  | miss h hd => exact .miss h hd

/-- Whether counting happens does not depend on the counter. -/
theorem State.countIfCompleted_withSteps (s : State) (n m : Nat) :
    (s.withSteps n).countIfCompleted.withSteps m = s.countIfCompleted.withSteps m := by
  cases h : s.outcome.isFailure with
  | true => rw [countIfCompleted_of_failure h, countIfCompleted_of_failure (s := s.withSteps n) h]; rfl
  | false => rw [countIfCompleted_of_not_failure h, countIfCompleted_of_not_failure (s := s.withSteps n) h]; rfl

/-- Where the step-limit check passes for both values of the counter, the step goes the same way for both. -/
theorem step_withSteps {s t : State} {n : Nat} (hl : ¬ s.LimitReached) (hn : ¬ (s.withSteps n).LimitReached)
    (h : step s = .next t) : ∃ u, step (s.withSteps n) = .next u ∧ u.withSteps t.steps = t := by
  obtain ⟨hr, hc⟩ := step_cases h
  have hrn : (s.withSteps n).outcome = .running := hr
  cases hc with
  | outOfBounds hb => exact ⟨_, step_outOfBounds hrn hb, rfl⟩
  | limit _ hl' => exact absurd hl' hl
  | undecodable hb _ hcache e hd => exact ⟨_, step_undecodable hrn hb hn hcache hd, rfl⟩
  | ran hb _ i s' u hv hx =>
    have hstep : step (s.withSteps n) = .next (u.withSteps n).countIfCompleted := by
      rw [step_ran hrn hb hn (hv.withSteps n), exec_withSteps hx, onNext_next]
    exact ⟨_, hstep, u.countIfCompleted_withSteps n _⟩

theorem hostReadRetval_withSteps (s : State) (n : Nat) :
    (hostReadRetval (s.withSteps n)).1 = (hostReadRetval s).1 := by
  by_cases h : s.outcome = .returned
  · have hn : (s.withSteps n).outcome = .returned := h
    rw [hostReadRetval, hostReadRetval, if_pos h, if_pos hn]; rfl
  · have hn : (s.withSteps n).outcome ≠ .returned := h
    rw [hostReadRetval, hostReadRetval, if_neg h, if_neg hn]; rfl

/-- Settles O34: a step counts by `StepCase.steps`; the counter is a piece of state no instruction touches; and of the
checks of a step only the one of the limit reads it (`step_withSteps`). -/
theorem stepCounterCountsCompletedInstructions : Obligations.StepCounterCountsCompletedInstructions := by
  unfold Obligations.StepCounterCountsCompletedInstructions
  refine ⟨fun s t h => ?counts, fun i s t n h => ?exec, fun s n => ⟨rfl, rfl, hostReadRetval_withSteps s n⟩,
    fun s t n hl hn h => step_withSteps hl hn h, fun s => rfl⟩
  case counts =>
    obtain ⟨-, hc⟩ := step_cases h
    have hsteps := hc.steps
    constructor
    · intro ht
      simpa [isFailure_of_running_or_returned ht] using hsteps
    · intro ht
      simpa [ht] using hsteps
  case exec =>
    obtain ⟨hsteps, -⟩ := (exec_cases h).kept
    exact ⟨hsteps, exec_withSteps h n⟩

end Sys2Proof.Machine
end

