-- ==== Sys2Proof/Proofs/DataMemory.lean ====
section
/-!
PROOFS. Proofs/DataMemory.lean: data memory is written by STR and read by LDR alone (20_memory.md R43): what an instruction
and a step do to memory, and that nothing but an LDR depends on it.
-/

namespace Sys2Proof.Machine

/-! ### What changes memory -/

/-- A cell an instruction changes is the cell at the exact address of an STR. -/
theorem Effect.memRead_ne {i : Instr} {s t : State} {a : Nat} (h : Effect i s t) (hne : t.memRead a ≠ s.memRead a) :
    ∃ rbase off rval, i = .str rbase off rval ∧ s.reg rbase + off = (a : Int) ∧ a ≤ 65535 := by
  cases h with
  | wrote _ _ _ _ _ => exact absurd rfl hne
  | stored rbase off rval hi ha =>
    have hcell : a = (s.reg rbase + off).toNat := by
      by_contra hna
      exact hne (s.memRead_memWrite_ne hna _)
    simp only [InA, Config.aMin, Config.aMax] at ha
    exact ⟨rbase, off, rval, hi, by omega, by omega⟩
  | skipped _ => exact absurd rfl hne
  | jumped _ _ => exact absurd rfl hne
  | halted _ _ => exact absurd rfl hne
  | raised _ _ => exact absurd rfl hne

/-- The instruction a step runs is the cached one, or the first decode of its line. -/
theorem Visited.line {s s' : State} {i : Instr} (h : Visited s i s') :
    s.cached s.pc.toNat = some i ∨ s.cached s.pc.toNat = none ∧ decodeLine (s.fetchLine s.pc.toNat) = .ok i := by
  cases h with
  | hit h => exact .inl h
  | miss h hd => exact .inr ⟨h, hd⟩

/-- A step that changes a cell runs an STR. -/
theorem StepCase.memRead_ne {s t : State} {a : Nat} (h : StepCase s t) (hne : t.memRead a ≠ s.memRead a) :
    ∃ i s', Visited s i s' ∧ i.opcode = .str := by
  cases h with
  | outOfBounds _ => exact absurd rfl hne
  | limit _ _ => exact absurd rfl hne
  | undecodable _ _ _ _ _ => exact absurd rfl hne
  | ran _ _ i s' u hv hx =>
    obtain ⟨-, -, hs', -⟩ := hv.kept
    obtain ⟨-, -, hu, -⟩ := countIfCompleted_kept u
    have hexec : u.memRead a ≠ s'.memRead a := by
      rwa [State.memRead, State.memRead, hu, ← hs'] at hne
    obtain ⟨rbase, off, rval, rfl, -⟩ := (exec_cases hx).memRead_ne hexec
    exact ⟨_, s', hv, rfl⟩

/-! ### Another data memory -/

theorem State.withMem_withMem_mem (t : State) (m : Memory) : (t.withMem m).withMem t.mem = t := rfl

theorem State.countIfCompleted_withMem (s : State) (m : Memory) :
    (s.withMem m).countIfCompleted = s.countIfCompleted.withMem m := by
  cases h : s.outcome.isFailure with
  | true => rw [countIfCompleted_of_failure h, countIfCompleted_of_failure (s := s.withMem m) h]
  | false => rw [countIfCompleted_of_not_failure h, countIfCompleted_of_not_failure (s := s.withMem m) h]; rfl

theorem writeResult_withMem (rd : Reg) (v : Int) (s : State) (m : Memory) :
    writeResult rd v (s.withMem m) = onNext (·.withMem m) (writeResult rd v s) := by
  by_cases h : InV v
  · rw [writeResult_inV h, writeResult_inV h]; rfl
  · rw [writeResult_not_inV h, writeResult_not_inV h]; rfl

/-- A store changes memory alone, so over another memory it leaves the same state, memory aside. -/
theorem State.storeCell_withMem (s : State) (a v : Int) (m : Memory) :
    ∃ m', (s.withMem m).storeCell a v = (s.storeCell a v).withMem m' := by
  by_cases h : InA a
  · exact ⟨Memory.write m a.toNat v, by rw [storeCell_inA h, storeCell_inA h]; rfl⟩
  · exact ⟨m, by rw [storeCell_not_inA h, storeCell_not_inA h]⟩

/-- An instruction other than LDR gives the same state, memory aside, whatever memory holds. -/
theorem exec_withMem {i : Instr} (hi : i.opcode ≠ .ldr) (s : State) (m : Memory) :
    ∃ m', exec i (s.withMem m) = onNext (·.withMem m') (exec i s) := by
  cases i with
  | mov rd imm => exact ⟨m, rfl⟩
  | ret rs => exact ⟨m, rfl⟩
  | add rd rs1 rs2 => exact ⟨m, writeResult_withMem ..⟩
  | sub rd rs1 rs2 => exact ⟨m, writeResult_withMem ..⟩
  | mul rd rs1 rs2 => exact ⟨m, writeResult_withMem ..⟩
  | div rd rs1 rs2 =>
    refine ⟨m, ?_⟩
    by_cases h : s.reg rs2 = 0
    · rw [exec_div_zero h, exec_div_zero (s := s.withMem m) h]; rfl
    · rw [exec_div_nonzero h, exec_div_nonzero (s := s.withMem m) h]; rfl
  | str rbase off rval =>
    obtain ⟨m', hm'⟩ := s.storeCell_withMem (s.reg rbase + off) (s.reg rval) m
    exact ⟨m', congrArg (fun u => (.next (State.advance u) : Answer)) hm'⟩
  | ldr rdest rbase off => exact absurd rfl hi
  | jmp off => exact ⟨m, rfl⟩
  | jz rcond off =>
    refine ⟨m, ?_⟩
    by_cases h : s.reg rcond = 0
    · rw [exec_jz_zero h, exec_jz_zero (s := s.withMem m) h]; rfl
    · rw [exec_jz_nonzero h, exec_jz_nonzero (s := s.withMem m) h]; rfl

theorem exec_withMem_next {i : Instr} {s t : State} (hi : i.opcode ≠ .ldr) (h : exec i s = .next t) (m : Memory) :
    ∃ m', exec i (s.withMem m) = .next (t.withMem m') := by
  obtain ⟨m', hm'⟩ := exec_withMem hi s m
  exact ⟨m', by rw [hm', h, onNext_next]⟩

theorem Visited.withMem {s s' : State} {i : Instr} (h : Visited s i s') (m : Memory) :
    Visited (s.withMem m) i (s'.withMem m) := by
  cases h with
  | hit h => exact .hit h
  | miss h hd => exact .miss h hd

/-- A step whose instruction, if it comes to run one, is no LDR goes the same way whatever memory holds. -/
theorem step_withMem {s t : State} (hno : s.InBounds → ¬ s.LimitReached → ∀ i s', Visited s i s' → i.opcode ≠ .ldr)
    (h : step s = .next t) (m : Memory) : ∃ m', step (s.withMem m) = .next (t.withMem m') := by
  obtain ⟨hr, hc⟩ := step_cases h
  have hrm : (s.withMem m).outcome = .running := hr
  cases hc with
  | outOfBounds hb => exact ⟨m, step_outOfBounds hrm hb⟩
  | limit hb hl => exact ⟨m, step_limit hrm hb hl⟩
  | undecodable hb hl hcache e hd => exact ⟨m, step_undecodable hrm hb hl hcache hd⟩
  | ran hb hl i s' u hv hx =>
    obtain ⟨m', hm'⟩ := exec_withMem_next (hno hb hl i s' hv) hx m
    exact ⟨m', by rw [step_ran hrm hb hl (hv.withMem m), hm', onNext_next, State.countIfCompleted_withMem]⟩

/-- Settles O22: of the ways in which an instruction acts only the store of STR changes memory (`Effect.memRead_ne`), and an
instruction other than LDR, as well as the step around it, commutes with a change of memory (`exec_withMem`,
`step_withMem`). -/
theorem onlyStrWritesAndOnlyLdrReadsMemory : Obligations.OnlyStrWritesAndOnlyLdrReadsMemory := by
  unfold Obligations.OnlyStrWritesAndOnlyLdrReadsMemory
  refine ⟨fun i s t a h hne => (exec_cases h).memRead_ne hne, fun i s t m hi h => ?execReads,
    fun s m k => ⟨rfl, rfl⟩, fun s t a h hne => ?stepWrites, fun s t m hno h => ?stepReads⟩
  case execReads =>
    obtain ⟨m', hm'⟩ := exec_withMem_next hi h m
    exact ⟨_, hm', t.withMem_withMem_mem m'⟩
  case stepWrites =>
    obtain ⟨-, hc⟩ := step_cases h
    obtain ⟨i, s', hv, hi⟩ := hc.memRead_ne hne
    exact ⟨i, hi, hv.line.imp_right And.right⟩
  case stepReads =>
    have hrun : s.InBounds → ¬ s.LimitReached → ∀ i s', Visited s i s' → i.opcode ≠ .ldr := by
      intro hb hl i s' hv
      rcases hno with hout | hlim | hline
      · exact absurd hb hout
      · exact absurd hlim hl
      · exact hline i hv.line
    obtain ⟨m', hm'⟩ := step_withMem hrun h m
    exact ⟨_, hm', t.withMem_withMem_mem m'⟩

end Sys2Proof.Machine
end

