-- ==== Sys2Proof/Proofs/LineDecoder.lean ====
section
/-!
PROOFS. Proofs/LineDecoder.lean: the decoder of text (30_encoding.md R60 to R75): the tokens of a line, integer literals,
register tokens, and what a line the decoder accepts must look like.
-/

namespace Sys2Proof.Laws

/-! ### Tokens (30_encoding.md R61) -/

/-- A line that begins with a character of a token has a first token. -/
theorem tokens_ne_nil {c : Char} (h : isSpace c = false) (t : Text) : ∃ u ts, tokens (c :: t) = u :: ts := by
  induction t generalizing c with
  | nil => exact ⟨_, _, tokens_last h⟩
  | cons d t ih =>
    cases hd : isSpace d with
    | true => exact ⟨_, _, tokens_before_space h hd t⟩
    | false =>
      obtain ⟨u, ts, hu⟩ := ih hd
      exact ⟨_, _, tokens_grow h hd hu⟩

/-- A whitespace character splits the tokens of a line. -/
theorem tokens_split {c : Char} (h : isSpace c = true) (a b : Text) :
    tokens (a ++ c :: b) = tokens a ++ tokens b := by
  induction a with
  | nil => exact tokens_space h b
  | cons x a ih =>
    cases hx : isSpace x with
    | true => rw [List.cons_append, tokens_space hx, tokens_space hx, ih]
    | false =>
      cases a with
      | nil => rw [List.cons_append, List.nil_append, tokens_before_space hx h, tokens_space h, tokens_last hx]; rfl
      | cons d a =>
        cases hd : isSpace d with
        | true =>
          rw [List.cons_append] at ih
          rw [List.cons_append, List.cons_append, tokens_before_space hx hd, tokens_before_space hx hd, ih]; rfl
        | false =>
          obtain ⟨u, ts, hu⟩ := tokens_ne_nil hd a
          have happ : tokens (d :: (a ++ c :: b)) = u :: (ts ++ tokens b) := by
            rw [← List.cons_append, ih, hu, List.cons_append]
          rw [List.cons_append, List.cons_append, tokens_grow hx hd happ, tokens_grow hx hd hu]; rfl

/-- A run without whitespace is one token. -/
theorem tokens_run {c : Char} {t : Text} (h : ∀ d ∈ c :: t, isSpace d = false) : tokens (c :: t) = [c :: t] := by
  induction t generalizing c with
  | nil => exact tokens_last (h c List.mem_cons_self)
  | cons d t ih =>
    obtain ⟨hc, ht⟩ := List.forall_mem_cons.1 h
    exact tokens_grow hc (ht d List.mem_cons_self) (ih ht)

/-- A line of whitespace has no token. -/
theorem tokens_blank {t : Text} (h : ∀ c ∈ t, isSpace c = true) : tokens t = [] := by
  induction t with
  | nil => rfl
  | cons c t ih =>
    obtain ⟨hc, ht⟩ := List.forall_mem_cons.1 h
    rw [tokens_space hc, ih ht]

/-! ### Lines the decoder accepts (30_encoding.md R75) -/

theorem mnemonic_of_ofMnemonic {m : Text} {op : Opcode} (h : Opcode.ofMnemonic m = some op) : op.mnemonic = m := by
  unfold Opcode.ofMnemonic at h
  simpa using List.find?_some h

/-- A line that decodes begins with a mnemonic, and its other tokens decode to the operands of the instruction. -/
theorem decodeText_cases {line : Text} {i : Instr} (h : decodeText line = .ok i) :
    ∃ op ops vals, tokens line = Opcode.mnemonic op :: ops ∧ decodeOperands op.form ops = .ok vals ∧
      op.build vals = some i := by
  unfold decodeText at h
  split at h
  · cases h
  · rename_i m ops htok
    split at h
    · cases h
    · rename_i op hop
      have hm := mnemonic_of_ofMnemonic hop
      split at h
      · split at h
        · cases h
        · rename_i vals hvals
          split at h
          · rename_i j hj
            cases h
            exact ⟨op, ops, vals, hm ▸ htok, hvals, hj⟩
          · cases h
      · cases h

/-- Settles O9: induction on the line, by the equations of `tokens` for its first two characters. -/
theorem tokensAreMaximalRuns : Obligations.TokensAreMaximalRuns := by
  unfold Obligations.TokensAreMaximalRuns
  refine ⟨fun c => ?six, rfl, fun a c b hc => tokens_split hc a b, fun a hne hrun => ?run, fun a hblank i h => ?blank⟩
  case six => simp [isSpace, or_assoc]
  case run =>
    obtain ⟨c, t, rfl⟩ := List.exists_cons_of_ne_nil hne
    exact tokens_run hrun
  case blank =>
    obtain ⟨op, ops, -, htok, -⟩ := decodeText_cases h
    rw [tokens_blank hblank] at htok
    cases htok

/-! ### Integer literals (30_encoding.md R63) -/

theorem isDigit_iff (c : Char) : isDigit c = true ↔ '0' ≤ c ∧ c ≤ '9' := by
  simp only [isDigit, Bool.and_eq_true, decide_eq_true_eq, Char.le_def, UInt32.le_iff_toNat_le]
  rfl

theorem isDigit_minus : isDigit '-' = false := by decide

theorem isDigit_plus : isDigit '+' = false := by decide

theorem digitsValue_nil (acc : Nat) : digitsValue acc [] = some acc := rfl

/-- The number read after `acc` is the left fold over the digits; any other character spoils it. -/
theorem digitsValue_eq_some (t : Text) (acc n : Nat) :
    digitsValue acc t = some n ↔
      (∀ c ∈ t, isDigit c = true) ∧ n = t.foldl (fun a c => 10 * a + (c.toNat - 48)) acc := by
  induction t generalizing acc with
  | nil => simp [digitsValue_nil, eq_comm (a := n)]
  | cons c t ih =>
    cases hc : isDigit c with
    | true => rw [digitsValue_digit hc, ih, List.forall_mem_cons, List.foldl_cons, Nat.mul_comm acc]; simp [hc]
    | false => rw [digitsValue_not_digit hc]; simp [hc]

theorem decimalValue_eq_some (t : Text) (n : Nat) :
    decimalValue t = some n ↔
      t ≠ [] ∧ (∀ c ∈ t, isDigit c = true) ∧ n = t.foldl (fun a c => 10 * a + (c.toNat - 48)) 0 := by
  cases t with
  | nil => simp [decimalValue]
  | cons c t => simp [decimalValue, digitsValue_eq_some]

theorem literalValue_minus (t : Text) :
    literalValue ('-' :: t) = (decimalValue t).map (fun n : Nat => -Int.ofNat n) := rfl

theorem literalValue_plus (t : Text) : literalValue ('+' :: t) = (decimalValue t).map Int.ofNat := rfl

theorem literalValue_unsigned {c : Char} (hm : c ≠ '-') (hp : c ≠ '+') (t : Text) :
    literalValue (c :: t) = (decimalValue (c :: t)).map Int.ofNat := by
  simp [literalValue, hm, hp]

/-- Decimal digits are a literal of their own value. -/
theorem literalValue_of_decimalValue {t : Text} {n : Nat} (h : decimalValue t = some n) :
    literalValue t = some (n : Int) := by
  obtain ⟨hne, hdig, -⟩ := (decimalValue_eq_some t n).1 h
  obtain ⟨c, t, rfl⟩ := List.exists_cons_of_ne_nil hne
  have hc := hdig c List.mem_cons_self
  have hm : c ≠ '-' := fun e => by simp [e, isDigit_minus] at hc
  have hp : c ≠ '+' := fun e => by simp [e, isDigit_plus] at hc
  rw [literalValue_unsigned hm hp, h]; rfl

/-- The three forms of an integer literal. -/
theorem literalValue_eq_some (t : Text) (v : Int) :
    literalValue t = some v ↔ ∃ (ds : Text) (n : Nat), decimalValue ds = some n ∧
      ((t = ds ∧ v = n) ∨ (t = '+' :: ds ∧ v = n) ∨ (t = '-' :: ds ∧ v = -(n : Int))) := by
  constructor
  · intro h
    cases t with
    | nil => cases h
    | cons c cs =>
      by_cases hm : c = '-'
      · subst hm
        obtain ⟨n, hn, rfl⟩ := Option.map_eq_some_iff.1 ((literalValue_minus cs).symm.trans h)
        exact ⟨cs, n, hn, .inr (.inr ⟨rfl, rfl⟩)⟩
      · by_cases hp : c = '+'
        · subst hp
          obtain ⟨n, hn, rfl⟩ := Option.map_eq_some_iff.1 ((literalValue_plus cs).symm.trans h)
          exact ⟨cs, n, hn, .inr (.inl ⟨rfl, rfl⟩)⟩
        · obtain ⟨n, hn, rfl⟩ := Option.map_eq_some_iff.1 ((literalValue_unsigned hm hp cs).symm.trans h)
          exact ⟨c :: cs, n, hn, .inl ⟨rfl, rfl⟩⟩
  · rintro ⟨ds, n, hn, ⟨rfl, rfl⟩ | ⟨rfl, rfl⟩ | ⟨rfl, rfl⟩⟩
    · exact literalValue_of_decimalValue hn
    · rw [literalValue_plus, hn]; rfl
    · rw [literalValue_minus, hn]; rfl

/-- A number position accepts a literal exactly when its value is within the bounds. -/
theorem decodeNumber_of_literal {t : Text} {v : Int} (h : literalValue t = some v) (lo hi : Int) :
    decodeNumber lo hi t = if lo ≤ v ∧ v ≤ hi then .ok (.num v) else .error .numberOutOfRange := by
  simp only [decodeNumber, h]

/-- Settles O10: the three forms of a literal (`literalValue_eq_some`), with the value of the digits as a fold over them
(`decimalValue_eq_some`). -/
theorem literalsAreSignedDecimal : Obligations.LiteralsAreSignedDecimal := by
  unfold Obligations.LiteralsAreSignedDecimal
  refine ⟨fun t v => ?value, fun t v h kind hkind => ?range⟩
  case value =>
    simp only [literalValue_eq_some, decimalValue_eq_some, isDigit_iff]
    constructor
    · rintro ⟨ds, n, ⟨hne, hdig, rfl⟩, hform⟩
      exact ⟨ds, hne, hdig, hform⟩
    · rintro ⟨ds, hne, hdig, hform⟩
      exact ⟨ds, _, ⟨hne, hdig, rfl⟩, hform⟩
  case range =>
    cases kind with
    | reg => simp at hkind
    | imm => exact decodeNumber_of_literal h ..
    | off => exact decodeNumber_of_literal h ..

/-! ### Register tokens (30_encoding.md R64) -/

theorem registerIndex_eq_some (t : Text) (k : Int) :
    registerIndex t = some k ↔ ∃ u : Text, t = 'R' :: u ∧ literalValue u = some k := by
  cases t with
  | nil => simp [registerIndex]
  | cons c cs => by_cases hc : c = 'R' <;> simp [registerIndex, hc]

theorem decodeRegister_eq_ok (t : Text) (v : Operand) :
    decodeRegister t = .ok v ↔ ∃ r : Reg, v = .reg r ∧ registerIndex t = some (r.val : Int) := by
  constructor
  · intro h
    unfold decodeRegister at h
    split at h
    · cases h
    · rename_i k hk
      split at h
      · rename_i hrange
        cases h
        exact ⟨_, rfl, by rw [hk, Int.toNat_of_nonneg hrange.1]⟩
      · cases h
  · rintro ⟨r, rfl, hr⟩
    have hrange : 0 ≤ (r.val : Int) ∧ (r.val : Int) < (Config.nreg : Int) := by
      have := r.isLt
      omega
    simp [decodeRegister, hr, hrange]

/-- Settles O49: the tables are as written; a line that decodes begins with a mnemonic (`decodeText_cases`); and the
register token is read by `registerIndex_eq_some` and `decodeRegister_eq_ok`. -/
theorem mnemonicsFormsAndRegisterTokensAreAsWritten : Obligations.MnemonicsFormsAndRegisterTokensAreAsWritten := by
  unfold Obligations.MnemonicsFormsAndRegisterTokensAreAsWritten
  refine ⟨by decide, by decide, fun line hno i h => ?unknown, registerIndex_eq_some, decodeRegister_eq_ok⟩
  case unknown =>
    obtain ⟨op, ops, -, htok, -⟩ := decodeText_cases h
    exact hno op (by rw [htok, List.head?_cons])

end Sys2Proof.Laws
end

