-- ==== Sys2Proof/Proofs/WordForm.lean ====
section
/-!
PROOFS. Proofs/WordForm.lean: the word form (30_encoding.md R80 to R84): the word of an instruction against its row of the
table, when a word is valid, and that what the decoder of text accepts has a valid word.
-/

namespace Sys2Proof.Laws

/-! ### The word of an instruction (30_encoding.md R82, R84) -/

/-- The word of every instruction lies in the row of its opcode. -/
theorem encode_matches (i : Instr) : (rowOf i.opcode).matches (encode i) = true := by
  cases i with
  | mov rd imm => exact EncodeMatchesRow.mov rd imm
  | ret rs => exact EncodeMatchesRow.ret rs
  | add rd rs1 rs2 => exact EncodeMatchesRow.add rd rs1 rs2
  | sub rd rs1 rs2 => exact EncodeMatchesRow.sub rd rs1 rs2
  | mul rd rs1 rs2 => exact EncodeMatchesRow.mul rd rs1 rs2
  | div rd rs1 rs2 => exact EncodeMatchesRow.div rd rs1 rs2
  | str rbase off rval => exact EncodeMatchesRow.str rbase off rval
  | ldr rdest rbase off => exact EncodeMatchesRow.ldr rdest rbase off
  | jmp off => exact EncodeMatchesRow.jmp off
  | jz rcond off => exact EncodeMatchesRow.jz rcond off

/-- `(encode i & mask) = match` for the row of the opcode. -/
theorem encode_mask (i : Instr) : encode i &&& (rowOf i.opcode).mask = (rowOf i.opcode).pat :=
  of_decide_eq_true (encode_matches i)

/-- Settles O2: the masks are `encode_mask`, and the fields are those of the five layouts. -/
theorem encodedWordFollowsItsTableRow : Obligations.EncodedWordFollowsItsTableRow := by
  unfold Obligations.EncodedWordFollowsItsTableRow
  refine ⟨fun rd imm => ?mov, fun rs => ?ret, fun rd rs1 rs2 => ?arith, fun rbase off rval => ?str,
    fun rdest rbase off => ?ldr, fun off => ?jmp, fun rcond off => ?jz⟩
  case mov => exact ⟨encode_mask (.mov rd imm), layoutRI_ra .., layoutRI_imm ..⟩
  case ret => exact ⟨encode_mask (.ret rs), layoutR_ra ..⟩
  case arith =>
    refine ⟨encode_mask (.add rd rs1 rs2), encode_mask (.sub rd rs1 rs2), encode_mask (.mul rd rs1 rs2),
      encode_mask (.div rd rs1 rs2), fun i hi => ?_⟩
    have hword : ∃ op, encode i = packRRR op rd rs1 rs2 := by
      simp only [List.mem_cons, List.not_mem_nil, or_false] at hi
      rcases hi with rfl | rfl | rfl | rfl <;> exact ⟨_, rfl⟩
    obtain ⟨op, hop⟩ := hword
    rw [hop]
    exact ⟨layoutRRR_ra .., layoutRRR_rb .., layoutRRR_rc ..⟩
  case str => exact ⟨encode_mask (.str rbase off rval), layoutRRI_ra .., layoutRRI_rb .., layoutRRI_imm ..⟩
  case ldr => exact ⟨encode_mask (.ldr rdest rbase off), layoutRRI_ra .., layoutRRI_rb .., layoutRRI_imm ..⟩
  case jmp => exact ⟨encode_mask (.jmp off), layoutI_imm ..⟩
  case jz => exact ⟨encode_mask (.jz rcond off), layoutRI_ra .., layoutRI_imm ..⟩

/-! ### Valid words (30_encoding.md R83) -/

theorem exists_rowOf {row : OpRow} (h : row ∈ opRows) : ∃ o, row = rowOf o := by
  rw [opRows_eq] at h
  obtain ⟨o, -, ho⟩ := List.mem_map.1 h
  exact ⟨o, ho.symm⟩

theorem Format.hasImm_iff (f : Format) : f.hasImm = true ↔ f = .ri ∨ f = .rri ∨ f = .i := by
  cases f <;> decide

/-- A word in an opcode's row whose immediate, if the row has one, is not the reserved pattern decodes by that opcode. -/
theorem decodeWord_of_valid {o : Opcode} {w : InstrWord} (h : (rowOf o).matches w = true)
    (himm : (rowOf o).format.hasImm = true → imm17Field w ≠ 0x10000) : decodeWord w = .ok (o.ofWord w) := by
  rw [decodeWord_of_matches h, if_neg]
  simpa using himm

/-- A word is valid exactly when it lies in one row and its immediate, if the row has one, is not the reserved pattern. -/
theorem decodeWord_ok_iff (w : InstrWord) :
    (∃ i, decodeWord w = .ok i) ↔
      (opRows.filter (fun row => row.matches w)).length = 1 ∧
        ∀ row ∈ opRows, row.matches w = true → row.format.hasImm = true → imm17Field w ≠ 0x10000 := by
  constructor
  · rintro ⟨i, hi⟩
    obtain ⟨o, ho, -, himm⟩ := decodeWord_cases hi
    refine ⟨by rw [filter_of_matches ho, List.length_singleton], fun row hrow hmatch => ?_⟩
    obtain ⟨p, rfl⟩ := exists_rowOf hrow
    rwa [row_unique hmatch ho]
  · rintro ⟨hone, himm⟩
    obtain ⟨row, hrow⟩ := List.length_eq_one_iff.1 hone
    obtain ⟨hmem, hmatch⟩ := List.mem_filter.1 (hrow ▸ List.mem_singleton_self row)
    obtain ⟨o, rfl⟩ := exists_rowOf hmem
    exact ⟨_, decodeWord_of_valid hmatch (himm _ hmem hmatch)⟩

/-- The opcode numbers 10 to 15 belong to no row. -/
theorem opField_lt_of_matches {row : OpRow} {w : InstrWord} (hrow : row ∈ opRows) (h : row.matches w = true) :
    (w.extractLsb' 28 4).toNat < 10 := by
  obtain ⟨o, rfl⟩ := exists_rowOf hrow
  rw [opField_of_matches h]
  cases o <;> decide

/-! ### The word of what the decoder of text accepts -/

/-- An operand that is a number is in the range of an immediate or offset (30_encoding.md R65). -/
def OperandInRange : Operand → Prop
  | .reg _ => True
  | .num v => -65535 ≤ v ∧ v ≤ 65535

theorem decodeNumber_inRange {t : Text} {x : Operand} (h : decodeNumber (-65535) 65535 t = .ok x) : OperandInRange x := by
  unfold decodeNumber at h
  split at h
  · cases h
  · split at h
    · rename_i hv
      cases h
      exact hv
    · cases h

theorem decodeOperand_inRange {k : OperandKind} {t : Text} {x : Operand} (h : decodeOperand k t = .ok x) :
    OperandInRange x := by
  cases k with
  | reg =>
    obtain ⟨r, rfl, -⟩ := (decodeRegister_eq_ok t x).1 h
    trivial
  | imm => exact decodeNumber_inRange h
  | off => exact decodeNumber_inRange h

theorem decodeOperands_inRange {ks : List OperandKind} {ts : List Text} {vals : List Operand}
    (h : decodeOperands ks ts = .ok vals) : ∀ x ∈ vals, OperandInRange x := by
  induction ks generalizing ts vals with
  | nil =>
    cases ts with
    | nil => cases h; simp
    | cons t ts => cases h
  | cons k ks ih =>
    cases ts with
    | nil => cases h
    | cons t ts =>
      simp only [decodeOperands] at h
      split at h
      · cases h
      · rename_i x hx
        split at h
        · cases h
        · rename_i xs hxs
          cases h
          exact List.forall_mem_cons.2 ⟨decodeOperand_inRange hx, ih hxs⟩

/-- The instruction over operands in range is well-formed. -/
theorem build_wellFormed {op : Opcode} {vals : List Operand} {i : Instr} (h : op.build vals = some i)
    (hr : ∀ x ∈ vals, OperandInRange x) : i.WellFormed := by
  unfold Opcode.build at h
  split at h <;> cases h <;> simp_all [OperandInRange, Instr.WellFormed, Instr.wellFormed]

/-- What the decoder of text accepts is well-formed. -/
theorem decodeText_wellFormed {line : Text} {i : Instr} (h : decodeText line = .ok i) : i.WellFormed := by
  obtain ⟨op, ops, vals, -, hvals, hbuild⟩ := decodeText_cases h
  exact build_wellFormed hbuild (decodeOperands_inRange hvals)

/-! ### Decode of encode -/

section Fields

variable (op : BitVec 4) (ra rb rc : Reg) (v : Int)

@[simp] theorem raField_packRI : raField (packRI op ra v) = ra := congrArg BitVec.toFin (layoutRI_ra ..)
@[simp] theorem imm17Field_packRI : imm17Field (packRI op ra v) = immBits v := layoutRI_imm ..

@[simp] theorem raField_packR : raField (packR op ra) = ra := congrArg BitVec.toFin (layoutR_ra ..)

@[simp] theorem raField_packRRR : raField (packRRR op ra rb rc) = ra := congrArg BitVec.toFin (layoutRRR_ra ..)
@[simp] theorem rbField_packRRR : rbField (packRRR op ra rb rc) = rb := congrArg BitVec.toFin (layoutRRR_rb ..)
@[simp] theorem rcField_packRRR : rcField (packRRR op ra rb rc) = rc := congrArg BitVec.toFin (layoutRRR_rc ..)

@[simp] theorem raField_packRRI : raField (packRRI op ra rb v) = ra := congrArg BitVec.toFin (layoutRRI_ra ..)
@[simp] theorem rbField_packRRI : rbField (packRRI op ra rb v) = rb := congrArg BitVec.toFin (layoutRRI_rb ..)
@[simp] theorem imm17Field_packRRI : imm17Field (packRRI op ra rb v) = immBits v := layoutRRI_imm ..

@[simp] theorem imm17Field_packI : imm17Field (packI op v) = immBits v := layoutI_imm ..

end Fields

/-- Reading the fields of the word of a well-formed instruction gives its operands back. -/
theorem ofWord_encode {i : Instr} (hw : i.WellFormed) : i.opcode.ofWord (encode i) = i := by
  cases i with
  | mov rd imm => simp [Instr.opcode, encode, Opcode.ofWord, immField, toInt_immBits (of_decide_eq_true hw)]
  | ret rs => simp [Instr.opcode, encode, Opcode.ofWord]
  | add rd rs1 rs2 => simp [Instr.opcode, encode, Opcode.ofWord]
  | sub rd rs1 rs2 => simp [Instr.opcode, encode, Opcode.ofWord]
  | mul rd rs1 rs2 => simp [Instr.opcode, encode, Opcode.ofWord]
  | div rd rs1 rs2 => simp [Instr.opcode, encode, Opcode.ofWord]
  | str rbase off rval => simp [Instr.opcode, encode, Opcode.ofWord, immField, toInt_immBits (of_decide_eq_true hw)]
  | ldr rdest rbase off => simp [Instr.opcode, encode, Opcode.ofWord, immField, toInt_immBits (of_decide_eq_true hw)]
  | jmp off => simp [Instr.opcode, encode, Opcode.ofWord, immField, toInt_immBits (of_decide_eq_true hw)]
  | jz rcond off => simp [Instr.opcode, encode, Opcode.ofWord, immField, toInt_immBits (of_decide_eq_true hw)]

/-- The immediate field holds a value in range exactly when it is not the reserved pattern. -/
theorem immField_inRange_iff (w : InstrWord) :
    (-65535 ≤ immField w ∧ immField w ≤ 65535) ↔ imm17Field w ≠ 0x10000 := by
  refine ⟨fun h hc => ?_, toInt_inRange⟩
  have hval : immField w = -65536 := by rw [immField, hc]; decide
  omega

/-- A word read by an opcode gives a well-formed instruction exactly when its immediate is not the reserved pattern. -/
theorem ofWord_wellFormed_iff (o : Opcode) (w : InstrWord) :
    (o.ofWord w).WellFormed ↔ ((rowOf o).format.hasImm = true → imm17Field w ≠ 0x10000) := by
  rw [← immField_inRange_iff]
  cases o <;> simp [Opcode.ofWord, Instr.WellFormed, Instr.wellFormed, rowOf, Format.hasImm]

/-- The word of a well-formed instruction decodes to it. -/
theorem decodeWord_encode {i : Instr} (hw : i.WellFormed) : decodeWord (encode i) = .ok i := by
  have hread := ofWord_encode hw
  have himm := (ofWord_wellFormed_iff i.opcode (encode i)).1 (hread.symm ▸ hw)
  rw [decodeWord_of_valid (encode_matches i) himm, hread]

/-- Settles O5: `decodeWord_ok_iff` for the valid words and `opField_lt_of_matches` for the reserved numbers; a
decoded line is well-formed, so its word decodes (`decodeWord_encode`); and an invalid word is a line that fails to decode
(`step_undecodable`). -/
theorem wordIsValidExactlyWhenOneRowMatches : Obligations.WordIsValidExactlyWhenOneRowMatches := by
  unfold Obligations.WordIsValidExactlyWhenOneRowMatches
  refine ⟨fun w => ?valid, fun w hres row hrow hmatch => ?reserved,
    fun line i h => decodeWord_encode (decodeText_wellFormed h), fun s w hr hb hl hc hword hbad => ?stored⟩
  case valid =>
    simpa only [OpRow.matches, decide_eq_true_eq, Format.hasImm_iff, imm17Field] using decodeWord_ok_iff w
  case reserved =>
    have hlt := opField_lt_of_matches hrow (decide_eq_true hmatch)
    omega
  case stored =>
    cases hd : decodeWord w with
    | ok i => exact absurd hd (hbad i)
    | error e =>
      have hline : decodeLine (s.fetchLine s.pc.toNat) = .error e := by rw [hword]; exact hd
      exact ⟨_, Machine.step_undecodable hr hb hl hc hline, Machine.onlyOutcome_setOutcome _ s⟩

end Sys2Proof.Laws
end

