-- ==== Sys2Proof/Proofs/OperandOrder.lean ====
section
/-!
PROOFS. Proofs/OperandOrder.lean: operands are read before anything is written (40_engine.md R108): what a completed
arithmetic instruction, load or store leaves in its destination, in terms of the state before it. The lemmas say nothing of
how the registers differ, so they hold when a source is also the destination.
-/

namespace Sys2Proof.Machine

theorem inA_natCast {a : Nat} (h : a ≤ 65535) : InA (a : Int) := by
  simp only [InA, Config.aMin, Config.aMax]
  omega

theorem reg_of_writeResult {rd : Reg} {v : Int} {s t : State} (h : writeResult rd v s = .next t) (hv : InV v) :
    t.reg rd = v := by
  rw [writeResult_inV hv] at h
  cases h
  rw [State.advance_reg, State.reg_setReg_same]

theorem reg_of_exec_div {rd rs1 rs2 : Reg} {s t : State} (h : exec (.div rd rs1 rs2) s = .next t) (h0 : s.reg rs2 ≠ 0) :
    t.reg rd = quot (s.reg rs1) (s.reg rs2) := by
  rw [exec_div_nonzero h0] at h
  cases h
  rw [State.advance_reg, State.reg_setReg_same]

theorem reg_of_exec_ldr {rdest rbase : Reg} {off : Int} {s t : State} {a : Nat}
    (h : exec (.ldr rdest rbase off) s = .next t) (ha : s.reg rbase + off = (a : Int)) (hle : a ≤ 65535) :
    t.reg rdest = s.memRead a := by
  rw [exec_ldr, ha, loadCell_inA (inA_natCast hle), Int.toNat_natCast] at h
  cases h
  rw [State.advance_reg, State.reg_setReg_same]

theorem memRead_of_exec_str {rbase rval : Reg} {off : Int} {s t : State} {a : Nat}
    (h : exec (.str rbase off rval) s = .next t) (ha : s.reg rbase + off = (a : Int)) (hle : a ≤ 65535) :
    t.memRead a = s.reg rval := by
  rw [exec_str, ha, storeCell_inA (inA_natCast hle), Int.toNat_natCast] at h
  cases h
  rw [State.advance_memRead, State.memRead_memWrite_same]

/-- Settles O25: each result is a value of the state before the instruction, whichever registers are named, so in particular
when a source is the destination. -/
theorem operandsAreReadBeforeTheWrite : Obligations.OperandsAreReadBeforeTheWrite := by
  unfold Obligations.OperandsAreReadBeforeTheWrite
  refine ⟨fun op hop r q s t => ?arith, fun r q s t h h0 => reg_of_exec_div h h0,
    fun r q s t h h0 => reg_of_exec_div h h0, fun r off s t a h ha hle => reg_of_exec_ldr h ha hle,
    fun r off s t a h ha hle => memRead_of_exec_str h ha hle⟩
  case arith =>
    have hexec : ∀ rd rs1 rs2, exec (op.1 rd rs1 rs2) s = writeResult rd (op.2 (s.reg rs1) (s.reg rs2)) s := by
      simp only [List.mem_cons, List.not_mem_nil, or_false] at hop
      rcases hop with rfl | rfl | rfl
      · exact fun rd rs1 rs2 => exec_add rd rs1 rs2 s
      · exact fun rd rs1 rs2 => exec_sub rd rs1 rs2 s
      · exact fun rd rs1 rs2 => exec_mul rd rs1 rs2 s
    rw [hexec, hexec]
    exact ⟨reg_of_writeResult, reg_of_writeResult⟩

end Sys2Proof.Machine
end

