-- ==== Sys2Proof/Proofs/EngineChecks.lean ====
section
/-!
PROOFS. Proofs/EngineChecks.lean: the checks of a step (40_engine.md R101 to R106): which outcome each of them gives, that
the step limit bounds the counter, and that no step is enabled outside RUNNING.
-/

namespace Sys2Proof.Machine

/-! ### The outcome of a step whose checks pass -/

/-- The outcomes an instruction leaves a running state in. -/
abbrev executeOutcomes : List OutcomeCode := [.running, .returned, .divisionByZero, .arithmeticOverflow]

theorem Effect.outcome_mem {i : Instr} {s t : State} (h : Effect i s t) (hr : s.outcome = .running) :
    t.outcome ∈ executeOutcomes := by
  have hrunning : s.outcome ∈ executeOutcomes := by rw [hr]; decide
  cases h with
  | wrote _ _ _ _ _ => exact hrunning
  | stored _ _ _ _ _ => exact hrunning
  | skipped _ => exact hrunning
  | jumped _ _ => exact hrunning
  | halted _ _ => simp
  | raised k hk => rcases hk with ⟨rfl, -⟩ | ⟨rfl, -⟩ <;> simp

theorem Visited.outcome_mem {s s' u : State} {i : Instr} (hv : Visited s i s') (hr : s.outcome = .running)
    (hx : exec i s' = .next u) : u.countIfCompleted.outcome ∈ executeOutcomes := by
  obtain ⟨-, -, -, hs', -⟩ := hv.kept
  obtain ⟨-, -, -, hout, -⟩ := countIfCompleted_kept u
  rw [hout]
  exact (exec_cases hx).outcome_mem (hs'.trans hr)

/-! ### The step limit (40_engine.md R102) -/

/-- A step ends with STEP_LIMIT_EXCEEDED only by the step-limit check. -/
theorem StepCase.limitReached {s t : State} (h : StepCase s t) (hr : s.outcome = .running)
    (ht : t.outcome = .stepLimitExceeded) : s.LimitReached := by
  cases h with
  | outOfBounds _ => cases ht
  | limit _ hl => exact hl
  | undecodable _ _ _ _ _ => cases ht
  | ran _ _ i s' u hv hx =>
    have hmem := hv.outcome_mem hr hx
    rw [ht] at hmem
    exact absurd hmem (by decide)

/-- Only a step past the limit check counts, so no step takes the counter beyond the limit. -/
theorem StepCase.steps_le {s t : State} {k : Nat} (h : StepCase s t) (hk : s.run.limit = some k) (hle : s.steps ≤ k) :
    t.steps ≤ k := by
  have hsteps := h.steps
  cases h with
  | outOfBounds _ => exact hle
  | limit _ _ => exact hle
  | undecodable _ _ _ _ _ => exact hle
  | ran _ hl i s' u hv hx =>
    have hne : s.steps ≠ k := fun e => hl (hk.trans (congrArg some e.symm))
    split at hsteps <;> omega

/-- Settles O29: the limit check comes right after the bounds check (`step_limit`), no other way of a step gives its outcome
(`StepCase.limitReached`), and a step that counts has passed it (`StepCase.steps_le`). -/
theorem stepLimitEndsTheRun : Obligations.StepLimitEndsTheRun := by
  unfold Obligations.StepLimitEndsTheRun
  refine ⟨fun s hr hb hl => ⟨_, step_limit hr hb hl, onlyOutcome_setOutcome _ s⟩, fun s t hinf h ht => ?inf,
    fun s t k hk hle h => (step_cases h).2.steps_le hk hle⟩
  case inf =>
    obtain ⟨hr, hc⟩ := step_cases h
    have hl : s.run.limit = some s.steps := hc.limitReached hr ht
    rw [hinf] at hl
    cases hl

/-! ### The order of the checks (40_engine.md R105) -/

/-- Settles O31: under the premises of each clause but the last the step is given by one equation; under those of the last
only the way in which the instruction ran is left. -/
theorem firstFailingCheckDecides : Obligations.FirstFailingCheckDecides := by
  unfold Obligations.FirstFailingCheckDecides
  intro s t hr h
  refine ⟨fun hb => ?bounds, fun hb hl => ?limit, fun hb hl hc hbad => ?decode, fun hb hl hline => ?execute⟩
  case bounds =>
    rw [step_outOfBounds hr hb] at h
    cases h
    rfl
  case limit =>
    rw [step_limit hr hb hl] at h
    cases h
    rfl
  case decode =>
    cases hd : decodeLine (s.fetchLine s.pc.toNat) with
    | ok i => exact absurd hd (hbad i)
    | error e =>
      rw [step_undecodable hr hb hl hc hd] at h
      cases h
      rfl
  case execute =>
    obtain ⟨-, hcase⟩ := step_cases h
    cases hcase with
    | outOfBounds hnb => exact absurd hb hnb
    | limit _ hlim => exact absurd hlim hl
    | undecodable _ _ hc e hd =>
      rcases hline with hne | ⟨i, hi⟩
      · exact absurd hc hne
      · rw [hd] at hi
        cases hi
    | ran _ _ i s' u hv hx => exact hv.outcome_mem hr hx

/-! ### Fetch bounds and terminal states (40_engine.md R101, R106) -/

theorem State.not_inBounds_iff (s : State) : ¬ s.InBounds ↔ s.pc < 0 ∨ (s.run.n : Int) ≤ s.pc := by
  simp only [State.InBounds]
  omega

/-- Settles O28: a pc at either end fails the bounds check, which comes first. -/
theorem pcOutOfBoundsEndsWithNoReturn : Obligations.PcOutOfBoundsEndsWithNoReturn := by
  unfold Obligations.PcOutOfBoundsEndsWithNoReturn
  intro s hr hpc
  exact ⟨_, step_outOfBounds hr (s.not_inBounds_iff.2 hpc), onlyOutcome_setOutcome _ s⟩

theorem OutcomeCode.isTerminal_iff (o : OutcomeCode) : o.isTerminal = true ↔ o ≠ .running ∧ o ≠ .idle := by
  cases o <;> decide

/-- Settles O32: the terminal outcomes by enumeration; a step outside RUNNING is a fault (`step_not_running`). -/
theorem terminalStatesHaveNoNextState : Obligations.TerminalStatesHaveNoNextState := by
  unfold Obligations.TerminalStatesHaveNoNextState
  refine ⟨OutcomeCode.isTerminal_iff, fun s t hn h => ?_⟩
  rw [step_not_running hn] at h
  cases h

end Sys2Proof.Machine
end

