-- ==== Sys2Proof/Proofs/Arithmetic.lean ====
section
/-!
PROOFS. Proofs/Arithmetic.lean: the arithmetic instructions (42_arithmetic.md): the exact result of ADD, SUB and MUL is
written or raises ARITHMETIC_OVERFLOW (R130), and a zero divisor raises DIVISION_BY_ZERO (R136).
-/

namespace Sys2Proof.Machine

/-- What an instruction that writes `v` to `rd` and goes to the next line leaves behind. -/
theorem State.setReg_advance_frame (s : State) (rd : Reg) (v : Int) :
    (s.setReg rd v).advance.reg rd = v ∧ (s.setReg rd v).advance.pc = s.pc + 1 ∧
    SameRegsExcept rd s (s.setReg rd v).advance ∧ SameMem s (s.setReg rd v).advance ∧
    SameOutcome s (s.setReg rd v).advance ∧ SameRest s (s.setReg rd v).advance :=
  ⟨s.reg_setReg_same rd v, rfl, fun _ hr => s.reg_setReg_ne v hr, fun _ => rfl, ⟨rfl, rfl⟩,
    rfl, rfl, rfl, rfl, rfl, rfl, rfl, rfl⟩

/-- ADD, SUB and MUL each hand their exact result to the one range check of R130. -/
theorem exec_arith {op : (Reg → Reg → Reg → Instr) × (Int → Int → Int)}
    (hop : op ∈ [(Instr.add, fun a b : Int => a + b), (Instr.sub, fun a b => a - b), (Instr.mul, fun a b => a * b)])
    (rd rs1 rs2 : Reg) (s : State) :
    exec (op.1 rd rs1 rs2) s = writeResult rd (op.2 (s.reg rs1) (s.reg rs2)) s := by
  simp only [List.mem_cons, List.not_mem_nil, or_false] at hop
  rcases hop with rfl | rfl | rfl
  · exact exec_add rd rs1 rs2 s
  · exact exec_sub rd rs1 rs2 s
  · exact exec_mul rd rs1 rs2 s

/-- Settles O14: the three instructions are one range check on their exact result (`exec_arith`), which writes the result
(`writeResult_inV`) or raises (`writeResult_not_inV`). -/
theorem addSubMulWriteTheExactResultOrOverflow : Obligations.AddSubMulWriteTheExactResultOrOverflow := by
  unfold Obligations.AddSubMulWriteTheExactResultOrOverflow
  intro op hop rd rs1 rs2 s
  rw [exec_arith hop]
  refine ⟨fun hv => ?inRange, fun hv => ?overflow⟩
  case inRange => exact ⟨_, writeResult_inV hv rd s, s.setReg_advance_frame rd _⟩
  case overflow => exact ⟨_, writeResult_not_inV hv rd s, onlyOutcome_setOutcome _ s⟩

/-- Settles O16: the zero test of DIV comes before any write (`exec_div_zero`), whatever the dividend. -/
theorem divByZeroRaises : Obligations.DivByZeroRaises := by
  unfold Obligations.DivByZeroRaises
  intro rd rs1 rs2 s h0
  exact ⟨_, exec_div_zero h0 rd rs1, onlyOutcome_setOutcome _ s⟩

end Sys2Proof.Machine
end

