-- ==== Sys2Proof/Proofs/Exceptions.lean ====
section
/-!
PROOFS. Proofs/Exceptions.lean: which instruction leads to which outcome, and when (60_exceptions.md R205, R206), and what
the host receives of an outcome (R210).
-/

namespace Sys2Proof.Machine

/-! ### The cause of each outcome of an instruction (60_exceptions.md R205, R206) -/

/-- The cause of DIVISION_BY_ZERO (42_arithmetic.md R136). -/
def DividesByZero (i : Instr) (s : State) : Prop := ∃ rd rs1 rs2, i = .div rd rs1 rs2 ∧ s.reg rs2 = 0

/-- The cause of ARITHMETIC_OVERFLOW (42_arithmetic.md R130). -/
def Overflows (i : Instr) (s : State) : Prop := ∃ rd rs1 rs2,
  (i = .add rd rs1 rs2 ∧ ¬ InV (s.reg rs1 + s.reg rs2)) ∨ (i = .sub rd rs1 rs2 ∧ ¬ InV (s.reg rs1 - s.reg rs2)) ∨
  (i = .mul rd rs1 rs2 ∧ ¬ InV (s.reg rs1 * s.reg rs2))

theorem outcome_of_dividesByZero {i : Instr} {s t : State} (hc : DividesByZero i s) (h : exec i s = .next t) :
    t.outcome = .divisionByZero := by
  obtain ⟨rd, rs1, rs2, rfl, h0⟩ := hc
  rw [exec_div_zero h0] at h
  cases h
  rfl

theorem outcome_of_overflows {i : Instr} {s t : State} (hc : Overflows i s) (h : exec i s = .next t) :
    t.outcome = .arithmeticOverflow := by
  have hraise : exec i s = .next (s.setOutcome .arithmeticOverflow) := by
    obtain ⟨rd, rs1, rs2, ⟨rfl, hv⟩ | ⟨rfl, hv⟩ | ⟨rfl, hv⟩⟩ := hc
    · rw [exec_add, writeResult_not_inV hv]
    · rw [exec_sub, writeResult_not_inV hv]
    · rw [exec_mul, writeResult_not_inV hv]
  rw [hraise] at h
  cases h
  rfl

theorem outcome_of_ret {i : Instr} {s t : State} (hi : i.opcode = .ret) (h : exec i s = .next t) :
    t.outcome = .returned := by
  cases i with
  | ret rs =>
    rw [exec_ret] at h
    cases h
    rfl
  | _ => cases hi

/-- An instruction leaves a running state running, or the outcome it leads to has its cause. -/
theorem Effect.outcome_cause {i : Instr} {s t : State} (h : Effect i s t) (hr : s.outcome = .running) :
    t.outcome = .running ∨ (t.outcome = .returned ∧ i.opcode = .ret) ∨
    (t.outcome = .divisionByZero ∧ DividesByZero i s) ∨ (t.outcome = .arithmeticOverflow ∧ Overflows i s) := by
  cases h with
  | wrote _ _ _ _ _ => exact .inl hr
  | stored _ _ _ _ _ => exact .inl hr
  | skipped _ => exact .inl hr
  | jumped _ _ => exact .inl hr
  | halted rs hi => exact .inr (.inl ⟨rfl, hi ▸ rfl⟩)
  | raised k hk => exact .inr (.inr hk)

/-- Only RET records a value. -/
theorem Effect.retval_of_ne_returned {i : Instr} {s t : State} (h : Effect i s t) (ht : t.outcome ≠ .returned) :
    t.retval = s.retval := by
  cases h with
  | halted rs hi => exact absurd rfl ht
  | _ => rfl

theorem OutcomeCode.ne_returned_of_isFailure {o : OutcomeCode} (h : o.isFailure = true) : o ≠ .returned := by
  rintro rfl
  cases h

section Running

variable {i : Instr} {s t : State} (hr : s.outcome = .running) (h : exec i s = .next t)
include hr h

theorem outcome_eq_divisionByZero_iff : t.outcome = .divisionByZero ↔ DividesByZero i s :=
  ⟨fun ht => by simpa [ht] using (exec_cases h).outcome_cause hr, fun hc => outcome_of_dividesByZero hc h⟩

theorem outcome_eq_arithmeticOverflow_iff : t.outcome = .arithmeticOverflow ↔ Overflows i s :=
  ⟨fun ht => by simpa [ht] using (exec_cases h).outcome_cause hr, fun hc => outcome_of_overflows hc h⟩

theorem outcome_eq_returned_iff : t.outcome = .returned ↔ i.opcode = .ret :=
  ⟨fun ht => by simpa [ht] using (exec_cases h).outcome_cause hr, fun hi => outcome_of_ret hi h⟩

theorem outcome_of_isFailure (hf : t.outcome.isFailure = true) :
    t.outcome = .divisionByZero ∨ t.outcome = .arithmeticOverflow := by
  rcases (exec_cases h).outcome_cause hr with ho | ⟨ho, -⟩ | ⟨ho, -⟩ | ⟨ho, -⟩
  · rw [ho] at hf; cases hf
  · rw [ho] at hf; cases hf
  · exact .inl ho
  · exact .inr ho

end Running

/-- Settles O24: each cause leads to its outcome by the equations of exec, and an outcome other than RUNNING has its cause
by the ways of `Effect`, of which RET alone records a value. -/
theorem onlyArithmeticRaises : Obligations.OnlyArithmeticRaises := by
  unfold Obligations.OnlyArithmeticRaises
  intro i s t hr h
  exact ⟨outcome_eq_divisionByZero_iff hr h, outcome_eq_arithmeticOverflow_iff hr h, outcome_eq_returned_iff hr h,
    outcome_of_isFailure hr h,
    fun hf => (exec_cases h).retval_of_ne_returned (OutcomeCode.ne_returned_of_isFailure hf)⟩

/-! ### What the host receives (60_exceptions.md R201, R210) -/

/-- The codes number the outcomes in the spec's order. -/
theorem OutcomeCode.ofNat_code (o : OutcomeCode) : OutcomeCode.ofNat o.code.toNat = o := by
  cases o <;> rfl

theorem OutcomeCode.code_injective : Function.Injective OutcomeCode.code :=
  Function.LeftInverse.injective (g := fun c : BitVec 3 => OutcomeCode.ofNat c.toNat) OutcomeCode.ofNat_code

theorem observe_returned {s : State} (h : s.outcome = .returned) : observe s = (.returned, some s.retval.toInt) := by
  rw [observe, if_pos h, h]

theorem observe_not_returned {s : State} (h : s.outcome ≠ .returned) : observe s = (s.outcome, none) := by
  rw [observe, if_neg h]

theorem hostReadRetval_returned {s : State} (h : s.outcome = .returned) : hostReadRetval s = (s.retval, s) := by
  rw [hostReadRetval, if_pos h]

theorem observe_value_iff (s : State) : (∃ v, (observe s).2 = some v) ↔ s.outcome = .returned := by
  by_cases h : s.outcome = .returned
  · simp [observe_returned h, h]
  · simp [observe_not_returned h, h]

theorem observe_congr {s t : State} (ho : t.outcome = s.outcome) (hv : t.retval = s.retval) : observe t = observe s := by
  rw [observe, observe, ho, hv]

/-- Settles O47: the codes are numbers in the spec's order, so distinct (`OutcomeCode.code_injective`), and `observe` is a
function of OUTCOME and RETVAL (`observe_congr`) that gives a value in RETURN alone (`observe_value_iff`). -/
theorem outcomesAreDistinguishable : Obligations.OutcomesAreDistinguishable := by
  unfold Obligations.OutcomesAreDistinguishable
  refine ⟨⟨rfl, rfl, rfl, rfl, rfl, rfl, rfl, rfl⟩, fun a b h => OutcomeCode.code_injective h, fun s => ⟨rfl, rfl⟩,
    fun s h => ⟨?observed, ?read⟩, observe_value_iff, fun s t ho hv => observe_congr ho hv⟩
  case observed => rw [observe_returned h]
  case read => rw [hostReadRetval_returned h]

end Sys2Proof.Machine
end

