-- ==== Sys2Proof/Proofs/WordRoundTrip.lean ====
section
/-!
PROOFS. Proofs/WordRoundTrip.lean: the word form both ways (30_encoding.md section 3): a well-formed instruction is read back
from its word, and a valid word is the word of the well-formed instruction it decodes to, since its row's mask fixes every
bit that is in no field.
-/

namespace Sys2Proof.Laws

/-- Settles O3: the word lies in the row of its opcode and its fields hold the operands (`decodeWord_encode`). -/
theorem wordDecodeInvertsEncode : Obligations.WordDecodeInvertsEncode := by
  unfold Obligations.WordDecodeInvertsEncode
  exact fun i hw => decodeWord_encode hw

/-! ### A word is its opcode number and its fields (30_encoding.md R80) -/

theorem getLsbD_of_mask {w m p : BitVec 32} (h : w &&& m = p) (k : Nat) : (w.getLsbD k && m.getLsbD k) = p.getLsbD k := by
  rw [← BitVec.getLsbD_and, h]

section Layout

variable {op : BitVec 4} {w : BitVec 32}

theorem layoutRI_of_mask (h : w &&& 0xF07E0000 = op ++ 0#28) :
    op ++ w.extractLsb' 23 5 ++ 0#6 ++ w.extractLsb' 0 17 = w := by
  ext k hk
  have hb := getLsbD_of_mask h k
  simp only [BitVec.getLsbD_append] at hb
  simp only [BitVec.getElem_append, BitVec.getElem_extractLsb']
  interval_cases k <;> simp_all

theorem layoutR_of_mask (h : w &&& 0xF07FFFFF = op ++ 0#28) : op ++ w.extractLsb' 23 5 ++ 0#23 = w := by
  ext k hk
  have hb := getLsbD_of_mask h k
  simp only [BitVec.getLsbD_append] at hb
  simp only [BitVec.getElem_append, BitVec.getElem_extractLsb']
  interval_cases k <;> simp_all

theorem layoutRRR_of_mask (h : w &&& 0xF003FFE0 = op ++ 0#28) :
    op ++ w.extractLsb' 23 5 ++ w.extractLsb' 18 5 ++ 0#13 ++ w.extractLsb' 0 5 = w := by
  ext k hk
  have hb := getLsbD_of_mask h k
  simp only [BitVec.getLsbD_append] at hb
  simp only [BitVec.getElem_append, BitVec.getElem_extractLsb']
  interval_cases k <;> simp_all

theorem layoutRRI_of_mask (h : w &&& 0xF0020000 = op ++ 0#28) :
    op ++ w.extractLsb' 23 5 ++ w.extractLsb' 18 5 ++ 0#1 ++ w.extractLsb' 0 17 = w := by
  ext k hk
  have hb := getLsbD_of_mask h k
  simp only [BitVec.getLsbD_append] at hb
  simp only [BitVec.getElem_append, BitVec.getElem_extractLsb']
  interval_cases k <;> simp_all

theorem layoutI_of_mask (h : w &&& 0xFFFE0000 = op ++ 0#28) : op ++ 0#11 ++ w.extractLsb' 0 17 = w := by
  ext k hk
  have hb := getLsbD_of_mask h k
  simp only [BitVec.getLsbD_append] at hb
  simp only [BitVec.getElem_append, BitVec.getElem_extractLsb']
  interval_cases k <;> simp_all

end Layout

@[simp] theorem immBits_immField (w : InstrWord) : immBits (immField w) = w.extractLsb' 0 17 := BitVec.ofInt_toInt

/-- A word in an opcode's row is the word of what its fields read as by that opcode. -/
theorem encode_ofWord {o : Opcode} {w : InstrWord} (h : (rowOf o).matches w = true) : encode (o.ofWord w) = w := by
  have hm : w &&& (rowOf o).mask = (rowOf o).pat := of_decide_eq_true h
  cases o with
  | mov => rw [Opcode.ofWord, encode, packRI, immBits_immField]; exact layoutRI_of_mask hm
  | ret => exact layoutR_of_mask hm
  | add => exact layoutRRR_of_mask hm
  | sub => exact layoutRRR_of_mask hm
  | mul => exact layoutRRR_of_mask hm
  | div => exact layoutRRR_of_mask hm
  | str => rw [Opcode.ofWord, encode, packRRI, immBits_immField]; exact layoutRRI_of_mask hm
  | ldr => rw [Opcode.ofWord, encode, packRRI, immBits_immField]; exact layoutRRI_of_mask hm
  | jmp => rw [Opcode.ofWord, encode, packI, immBits_immField]; exact layoutI_of_mask hm
  | jz => rw [Opcode.ofWord, encode, packRI, immBits_immField]; exact layoutRI_of_mask hm

/-- What a word decodes to is well-formed. -/
theorem decodeWord_wellFormed {w : InstrWord} {i : Instr} (h : decodeWord w = .ok i) : i.WellFormed := by
  obtain ⟨o, -, rfl, himm⟩ := decodeWord_cases h
  exact (ofWord_wellFormed_iff o w).2 himm

/-- Settles O4: a valid word lies in the row of the opcode it is read by, where it is fixed by its fields
(`encode_ofWord`). -/
theorem wordEncodeInvertsDecode : Obligations.WordEncodeInvertsDecode := by
  unfold Obligations.WordEncodeInvertsDecode
  intro w i h
  refine ⟨?_, decodeWord_wellFormed h⟩
  obtain ⟨o, hrow, rfl, -⟩ := decodeWord_cases h
  exact encode_ofWord hrow

/-- Settles O6: the rows are those of ten different opcodes (`opRows_eq`), and a word fixes the opcode of its row
(`row_unique`). -/
theorem noWordMatchesTwoRows : Obligations.NoWordMatchesTwoRows := by
  unfold Obligations.NoWordMatchesTwoRows
  have hnodup : opcodes.Pairwise (· ≠ ·) := by decide
  rw [opRows_eq, List.pairwise_map]
  refine hnodup.imp fun hne w hboth => ?_
  obtain ⟨ha, hb⟩ := hboth
  exact hne (row_unique (decide_eq_true ha) (decide_eq_true hb))

/-- Settles O1: the decoders are evaluated on the spec's ten words and ten lines. -/
theorem specWordsAndLinesDecode : Obligations.SpecWordsAndLinesDecode := by
  unfold Obligations.SpecWordsAndLinesDecode
  decide

end Sys2Proof.Laws
end

