-- ==== Sys2Proof/Proofs/LineRoundTrip.lean ====
section
/-!
PROOFS. Proofs/LineRoundTrip.lean: the text form both ways (30_encoding.md R60 to R76): which lines decode, and that the plain
line of a well-formed instruction decodes to it.
-/

namespace Sys2Proof.Laws

open Machine (OperandAccepted)

/-! ### Operands (30_encoding.md R66 to R69) -/

/-- A decoded operand is of the kind its position asks for. -/
def OperandHasKind : OperandKind → Operand → Prop
  | .reg, x => ∃ r, x = .reg r
  | .imm, x => ∃ v, x = .num v
  | .off, x => ∃ v, x = .num v

theorem decodeNumber_eq_ok (lo hi : Int) (t : Text) (x : Operand) :
    decodeNumber lo hi t = .ok x ↔ ∃ v, x = .num v ∧ literalValue t = some v ∧ lo ≤ v ∧ v ≤ hi := by
  constructor
  · intro h
    unfold decodeNumber at h
    split at h
    · cases h
    · rename_i v hv
      split at h
      · rename_i hrange
        cases h
        exact ⟨v, rfl, hv, hrange⟩
      · cases h
  · rintro ⟨v, rfl, hv, hrange⟩
    rw [decodeNumber_of_literal hv, if_pos hrange]

theorem decodeOperand_hasKind {k : OperandKind} {t : Text} {x : Operand} (h : decodeOperand k t = .ok x) :
    OperandHasKind k x := by
  cases k with
  | reg =>
    obtain ⟨r, hx, -⟩ := (decodeRegister_eq_ok t x).1 h
    exact ⟨r, hx⟩
  | imm =>
    obtain ⟨v, hx, -⟩ := (decodeNumber_eq_ok _ _ t x).1 h
    exact ⟨v, hx⟩
  | off =>
    obtain ⟨v, hx, -⟩ := (decodeNumber_eq_ok _ _ t x).1 h
    exact ⟨v, hx⟩

/-- An operand token decodes exactly when it is what its position asks for, and in range. -/
theorem decodeOperand_ok_iff (k : OperandKind) (t : Text) : (∃ x, decodeOperand k t = .ok x) ↔ OperandAccepted k t := by
  cases k with
  | reg =>
    simp only [decodeOperand, decodeRegister_eq_ok, OperandAccepted]
    constructor
    · rintro ⟨x, r, -, hr⟩
      have hlt : r.val < 32 := r.isLt
      exact ⟨r.val, hr, by omega, by omega⟩
    · rintro ⟨k, hk, h0, h31⟩
      have hlt : k.toNat < 32 := by omega
      exact ⟨_, ⟨k.toNat, hlt⟩, rfl, by rw [hk, Int.toNat_of_nonneg h0]⟩
  | imm =>
    simp only [decodeOperand, decodeNumber_eq_ok, OperandAccepted]
    exact ⟨fun ⟨_, v, _, hv⟩ => ⟨v, hv⟩, fun ⟨v, hv⟩ => ⟨_, v, rfl, hv⟩⟩
  | off =>
    simp only [decodeOperand, decodeNumber_eq_ok, OperandAccepted]
    exact ⟨fun ⟨_, v, _, hv⟩ => ⟨v, hv⟩, fun ⟨v, hv⟩ => ⟨_, v, rfl, hv⟩⟩

theorem decodeOperands_cons {k : OperandKind} {ks : List OperandKind} {t : Text} {ts : List Text} {x : Operand}
    {xs : List Operand} (hx : decodeOperand k t = .ok x) (hxs : decodeOperands ks ts = .ok xs) :
    decodeOperands (k :: ks) (t :: ts) = .ok (x :: xs) := by
  simp only [decodeOperands, hx, hxs]

/-- Operands that decode are, one for one, decoded by the kinds of the form. -/
theorem decodeOperands_cons_cases {k : OperandKind} {ks : List OperandKind} {ts : List Text} {vals : List Operand}
    (h : decodeOperands (k :: ks) ts = .ok vals) :
    ∃ t ts' x xs, ts = t :: ts' ∧ vals = x :: xs ∧ decodeOperand k t = .ok x ∧ decodeOperands ks ts' = .ok xs := by
  cases ts with
  | nil => cases h
  | cons t ts =>
    simp only [decodeOperands] at h
    split at h
    · cases h
    · rename_i x hx
      split at h
      · cases h
      · rename_i xs hxs
        cases h
        exact ⟨t, ts, x, xs, rfl, rfl, hx, hxs⟩

theorem decodeOperands_nil_cases {ts : List Text} {vals : List Operand} (h : decodeOperands [] ts = .ok vals) :
    ts = [] ∧ vals = [] := by
  cases ts with
  | nil => cases h; exact ⟨rfl, rfl⟩
  | cons t ts => cases h

/-- What the operands of a line decode to has the kinds of the form. -/
theorem decodeOperands_hasKinds {ks : List OperandKind} {ts : List Text} {vals : List Operand}
    (h : decodeOperands ks ts = .ok vals) : List.Forall₂ OperandHasKind ks vals := by
  induction ks generalizing ts vals with
  | nil =>
    obtain ⟨-, rfl⟩ := decodeOperands_nil_cases h
    exact .nil
  | cons k ks ih =>
    obtain ⟨t, ts', x, xs, -, rfl, hx, hxs⟩ := decodeOperands_cons_cases h
    exact .cons (decodeOperand_hasKind hx) (ih hxs)

/-- The operands of a line decode exactly when each is what its position asks for. -/
theorem decodeOperands_ok_iff (ks : List OperandKind) (ts : List Text) :
    (∃ vals, decodeOperands ks ts = .ok vals) ↔ List.Forall₂ OperandAccepted ks ts := by
  constructor
  · rintro ⟨vals, h⟩
    induction ks generalizing ts vals with
    | nil =>
      obtain ⟨rfl, -⟩ := decodeOperands_nil_cases h
      exact .nil
    | cons k ks ih =>
      obtain ⟨t, ts', x, xs, rfl, -, hx, hxs⟩ := decodeOperands_cons_cases h
      exact .cons ((decodeOperand_ok_iff k t).1 ⟨x, hx⟩) (ih ts' xs hxs)
  · intro h
    induction h with
    | nil => exact ⟨[], rfl⟩
    | cons hacc _ ih =>
      obtain ⟨x, hx⟩ := (decodeOperand_ok_iff _ _).2 hacc
      obtain ⟨xs, hxs⟩ := ih
      exact ⟨_, decodeOperands_cons hx hxs⟩

/-! ### Building the instruction (30_encoding.md R76) -/

theorem opcode_of_build {op : Opcode} {vals : List Operand} {i : Instr} (h : op.build vals = some i) : i.opcode = op := by
  unfold Opcode.build at h
  split at h <;> cases h <;> rfl

/-- Operands of the kinds of an opcode's form make an instruction. -/
theorem build_of_hasKinds {op : Opcode} {vals : List Operand} (h : List.Forall₂ OperandHasKind op.form vals) :
    ∃ i, op.build vals = some i := by
  cases op <;> simp only [Opcode.form, List.forall₂_cons_left_iff, List.forall₂_nil_left_iff, OperandHasKind] at h
  case mov => obtain ⟨_, _, ⟨rd, rfl⟩, ⟨_, _, ⟨imm, rfl⟩, rfl, rfl⟩, rfl⟩ := h; exact ⟨_, rfl⟩
  case ret => obtain ⟨_, _, ⟨rs, rfl⟩, rfl, rfl⟩ := h; exact ⟨_, rfl⟩
  case str =>
    obtain ⟨_, _, ⟨rbase, rfl⟩, ⟨_, _, ⟨off, rfl⟩, ⟨_, _, ⟨rval, rfl⟩, rfl, rfl⟩, rfl⟩, rfl⟩ := h; exact ⟨_, rfl⟩
  case ldr =>
    obtain ⟨_, _, ⟨rdest, rfl⟩, ⟨_, _, ⟨rbase, rfl⟩, ⟨_, _, ⟨off, rfl⟩, rfl, rfl⟩, rfl⟩, rfl⟩ := h; exact ⟨_, rfl⟩
  case jmp => obtain ⟨_, _, ⟨off, rfl⟩, rfl, rfl⟩ := h; exact ⟨_, rfl⟩
  case jz => obtain ⟨_, _, ⟨rcond, rfl⟩, ⟨_, _, ⟨off, rfl⟩, rfl, rfl⟩, rfl⟩ := h; exact ⟨_, rfl⟩
  all_goals
    obtain ⟨_, _, ⟨rd, rfl⟩, ⟨_, _, ⟨rs1, rfl⟩, ⟨_, _, ⟨rs2, rfl⟩, rfl, rfl⟩, rfl⟩, rfl⟩ := h
    exact ⟨_, rfl⟩

/-! ### Which lines decode (30_encoding.md R75) -/

@[simp] theorem ofMnemonic_mnemonic (op : Opcode) : Opcode.ofMnemonic op.mnemonic = some op := by
  cases op <;> decide

/-- A line of a mnemonic and operands that decode to those of an instruction decodes to it. -/
theorem decodeText_of_operands {line : Text} {op : Opcode} {ops : List Text} {vals : List Operand} {i : Instr}
    (htok : tokens line = op.mnemonic :: ops) (hvals : decodeOperands op.form ops = .ok vals)
    (hbuild : op.build vals = some i) : decodeText line = .ok i := by
  have hlen : ops.length = op.form.length :=
    ((decodeOperands_ok_iff op.form ops).1 ⟨vals, hvals⟩).length_eq.symm
  simp only [decodeText, htok, ofMnemonic_mnemonic, hlen, hvals, hbuild, if_true]

/-- Settles O11: a line that decodes has operands that decode (`decodeText_cases`), which each pass
(`decodeOperands_ok_iff`); operands that pass have the kinds of the form, so they make an instruction
(`build_of_hasKinds`). -/
theorem lineDecodesExactlyWhenEveryOperandPasses : Obligations.LineDecodesExactlyWhenEveryOperandPasses := by
  unfold Obligations.LineDecodesExactlyWhenEveryOperandPasses
  intro line
  constructor
  · rintro ⟨i, h⟩
    obtain ⟨op, ops, vals, htok, hvals, -⟩ := decodeText_cases h
    exact ⟨op, ops, htok, (decodeOperands_ok_iff op.form ops).1 ⟨vals, hvals⟩⟩
  · rintro ⟨op, ops, htok, hops⟩
    obtain ⟨vals, hvals⟩ := (decodeOperands_ok_iff op.form ops).2 hops
    obtain ⟨i, hi⟩ := build_of_hasKinds (decodeOperands_hasKinds hvals)
    exact ⟨i, decodeText_of_operands htok hvals hi⟩

/-- Settles O8: the operands of a decoded line are in range (`decodeText_wellFormed`), and the instruction is built by the
opcode of the line's mnemonic (`opcode_of_build`). -/
theorem decodedLineIsWellFormed : Obligations.DecodedLineIsWellFormed := by
  unfold Obligations.DecodedLineIsWellFormed
  intro line i h
  obtain ⟨op, ops, vals, htok, -, hbuild⟩ := decodeText_cases h
  exact ⟨decodeText_wellFormed h, by rw [htok, List.head?_cons, opcode_of_build hbuild]⟩

/-! ### Decimal digits (30_encoding.md R63) -/

theorem isDigit_digitChar (n : Nat) : isDigit (Char.ofNat (48 + n % 10)) = true := by
  have h10 : n % 10 < 10 := Nat.mod_lt n (by decide)
  simp only [isDigit, digitChar_toNat h10, Bool.and_eq_true, decide_eq_true_eq]
  omega

theorem digitsOnto_last {n : Nat} (h : n / 10 = 0) (fuel : Nat) (acc : Text) :
    digitsOnto (fuel + 1) n acc = Char.ofNat (48 + n % 10) :: acc := by
  simp only [digitsOnto, h, if_true]

theorem digitsOnto_more {n : Nat} (h : n / 10 ≠ 0) (fuel : Nat) (acc : Text) :
    digitsOnto (fuel + 1) n acc = digitsOnto fuel (n / 10) (Char.ofNat (48 + n % 10) :: acc) := by
  simp only [digitsOnto, h, if_false]

theorem digitsValue_digitChar (a n : Nat) (acc : Text) :
    digitsValue a (Char.ofNat (48 + n % 10) :: acc) = digitsValue (a * 10 + n % 10) acc := by
  rw [digitsValue_digit (isDigit_digitChar n), digitChar_toNat (Nat.mod_lt n (by decide)), Nat.add_sub_cancel_left]

/-- Reading the digits of `n` written before `acc` leaves `n` read and `acc` to go. -/
theorem digitsValue_digitsOnto {fuel n : Nat} (h : n < fuel) (acc : Text) :
    digitsValue 0 (digitsOnto fuel n acc) = digitsValue n acc := by
  induction fuel generalizing n acc with
  | zero => omega
  | succ fuel ih =>
    by_cases hn : n / 10 = 0
    · rw [digitsOnto_last hn, digitsValue_digitChar]
      congr 1
      omega
    · rw [digitsOnto_more hn, ih (by omega), digitsValue_digitChar]
      congr 1
      omega

theorem digitsOnto_ne_nil (fuel n : Nat) (acc : Text) : digitsOnto (fuel + 1) n acc ≠ [] := by
  induction fuel generalizing n acc with
  | zero => by_cases hn : n / 10 = 0 <;> simp [digitsOnto, hn]
  | succ fuel ih =>
    by_cases hn : n / 10 = 0
    · simp [digitsOnto_last hn]
    · rw [digitsOnto_more hn]
      exact ih _ _

/-- The digits of a number are read back as the number. -/
theorem decimalValue_natText (n : Nat) : decimalValue (natText n) = some n := by
  have hne : (natText n).isEmpty = false := by simpa [natText] using digitsOnto_ne_nil n n []
  rw [decimalValue, hne, natText, digitsValue_digitsOnto (Nat.lt_succ_self n)]
  rfl

theorem literalValue_natText (n : Nat) : literalValue (natText n) = some (n : Int) :=
  literalValue_of_decimalValue (decimalValue_natText n)

theorem literalValue_intText (v : Int) : literalValue (intText v) = some v := by
  by_cases hv : v < 0
  · rw [intText, if_pos hv, literalValue_minus, decimalValue_natText, Option.map_some, Int.ofNat_eq_natCast]
    congr 1
    omega
  · rw [intText, if_neg hv, literalValue_natText]
    congr 1
    omega

theorem registerIndex_regText (r : Reg) : registerIndex (regText r) = some (r.val : Int) :=
  (registerIndex_eq_some _ _).2 ⟨_, rfl, literalValue_natText r.val⟩

theorem decodeOperand_regText (r : Reg) : decodeOperand .reg (regText r) = .ok (.reg r) :=
  (decodeRegister_eq_ok _ _).2 ⟨r, rfl, registerIndex_regText r⟩

theorem decodeOperand_imm_intText {v : Int} (h : ImmOk v) : decodeOperand .imm (intText v) = .ok (.num v) :=
  (decodeNumber_eq_ok ..).2 ⟨v, rfl, literalValue_intText v, h⟩

theorem decodeOperand_off_intText {v : Int} (h : OffOk v) : decodeOperand .off (intText v) = .ok (.num v) :=
  (decodeNumber_eq_ok ..).2 ⟨v, rfl, literalValue_intText v, h⟩

/-! ### The tokens of a plain line (30_encoding.md R61) -/

/-- A text that can stand as one token: not empty and without whitespace. -/
def IsToken (t : Text) : Prop := t ≠ [] ∧ ∀ c ∈ t, isSpace c = false

theorem IsToken.tokens_eq {t : Text} (h : IsToken t) : tokens t = [t] := by
  obtain ⟨hne, hrun⟩ := h
  obtain ⟨c, u, rfl⟩ := List.exists_cons_of_ne_nil hne
  exact tokens_run hrun

theorem IsToken.cons {c : Char} {t : Text} (hc : isSpace c = false) (h : IsToken t) : IsToken (c :: t) :=
  ⟨List.cons_ne_nil c t, List.forall_mem_cons.2 ⟨hc, h.2⟩⟩

/-- A line of tokens joined by single spaces has these tokens. -/
theorem tokens_joinTokens {ts : List Text} (h : ∀ t ∈ ts, IsToken t) : tokens (joinTokens ts) = ts := by
  induction ts with
  | nil => rfl
  | cons t ts ih =>
    obtain ⟨ht, hts⟩ := List.forall_mem_cons.1 h
    cases ts with
    | nil => exact ht.tokens_eq
    | cons u us =>
      have hspace : isSpace ' ' = true := by decide
      rw [joinTokens, tokens_split hspace, ht.tokens_eq, ih hts, List.singleton_append]
      exact List.cons_ne_nil u us

theorem isSpace_of_isDigit {c : Char} (h : isDigit c = true) : isSpace c = false := by
  simp only [isDigit, Bool.and_eq_true, decide_eq_true_eq] at h
  simp only [isSpace, Bool.or_eq_false_iff, beq_eq_false_iff_ne]
  omega

theorem isToken_natText (n : Nat) : IsToken (natText n) := by
  obtain ⟨hne, hdig, -⟩ := (decimalValue_eq_some _ _).1 (decimalValue_natText n)
  exact ⟨hne, fun c hc => isSpace_of_isDigit (hdig c hc)⟩

theorem isToken_intText (v : Int) : IsToken (intText v) := by
  by_cases hv : v < 0
  · rw [intText, if_pos hv]
    exact (isToken_natText _).cons (by decide)
  · rw [intText, if_neg hv]
    exact isToken_natText _

theorem isToken_regText (r : Reg) : IsToken (regText r) := (isToken_natText r.val).cons (by decide)

theorem isToken_mnemonic (op : Opcode) : IsToken op.mnemonic := by
  cases op <;> simp [IsToken, Opcode.mnemonic, isSpace]

theorem isToken_operandTexts (i : Instr) : ∀ t ∈ i.operandTexts, IsToken t := by
  cases i <;> simp [Instr.operandTexts, isToken_regText, isToken_intText]

theorem tokens_encodeText (i : Instr) : tokens (encodeText i) = i.opcode.mnemonic :: i.operandTexts :=
  tokens_joinTokens (List.forall_mem_cons.2 ⟨isToken_mnemonic _, isToken_operandTexts i⟩)

/-! ### Decode of the plain line -/

/-- The operands of an instruction in the order of its form (30_encoding.md R66, R76). -/
def operandsOf : Instr → List Operand
  | .mov rd imm => [.reg rd, .num imm]
  | .ret rs => [.reg rs]
  | .add rd rs1 rs2 => [.reg rd, .reg rs1, .reg rs2]
  | .sub rd rs1 rs2 => [.reg rd, .reg rs1, .reg rs2]
  | .mul rd rs1 rs2 => [.reg rd, .reg rs1, .reg rs2]
  | .div rd rs1 rs2 => [.reg rd, .reg rs1, .reg rs2]
  | .str rbase off rval => [.reg rbase, .num off, .reg rval]
  | .ldr rdest rbase off => [.reg rdest, .reg rbase, .num off]
  | .jmp off => [.num off]
  | .jz rcond off => [.reg rcond, .num off]

theorem build_operandsOf (i : Instr) : i.opcode.build (operandsOf i) = some i := by
  cases i <;> rfl

theorem decodeOperands_operandTexts {i : Instr} (hw : i.WellFormed) :
    decodeOperands i.opcode.form i.operandTexts = .ok (operandsOf i) := by
  cases i with
  | mov rd imm =>
    exact decodeOperands_cons (decodeOperand_regText _)
      (decodeOperands_cons (decodeOperand_imm_intText (of_decide_eq_true hw)) rfl)
  | ret rs => exact decodeOperands_cons (decodeOperand_regText _) rfl
  | str rbase off rval =>
    exact decodeOperands_cons (decodeOperand_regText _)
      (decodeOperands_cons (decodeOperand_off_intText (of_decide_eq_true hw))
        (decodeOperands_cons (decodeOperand_regText _) rfl))
  | ldr rdest rbase off =>
    exact decodeOperands_cons (decodeOperand_regText _)
      (decodeOperands_cons (decodeOperand_regText _)
        (decodeOperands_cons (decodeOperand_off_intText (of_decide_eq_true hw)) rfl))
  | jmp off => exact decodeOperands_cons (decodeOperand_off_intText (of_decide_eq_true hw)) rfl
  | jz rcond off =>
    exact decodeOperands_cons (decodeOperand_regText _)
      (decodeOperands_cons (decodeOperand_off_intText (of_decide_eq_true hw)) rfl)
  | _ =>
    exact decodeOperands_cons (decodeOperand_regText _)
      (decodeOperands_cons (decodeOperand_regText _) (decodeOperands_cons (decodeOperand_regText _) rfl))

/-- Settles O7: the plain line splits into the mnemonic and the operand tokens (`tokens_encodeText`), and each operand token
is read back as its operand (`decodeOperands_operandTexts`), digit by digit (`digitsValue_digitsOnto`). -/
theorem textDecodeInvertsEncode : Obligations.TextDecodeInvertsEncode := by
  unfold Obligations.TextDecodeInvertsEncode
  exact fun i hw =>
    decodeText_of_operands (tokens_encodeText i) (decodeOperands_operandTexts hw) (build_operandsOf i)

end Sys2Proof.Laws
end

