-- ==== Sys2Proof/Proofs/DecodeCache.lean ====
section
/-!
PROOFS. Proofs/DecodeCache.lean: the decode cache (10_state.md R31): every step keeps it coherent with the program, and two
states that differ in coherent caches alone run alike, by a simulation of one step carried over runs of every length.
-/

namespace Sys2Proof.Machine

/-! ### What a step leaves alone -/

theorem SameHost.trans {s t u : State} (h : SameHost s t) (h' : SameHost t u) : SameHost s u := by
  obtain ⟨hs, hn, he, hv, hf⟩ := h
  obtain ⟨hs', hn', he', hv', hf'⟩ := h'
  exact ⟨hs'.trans hs, hn'.trans hn, he'.trans he, hv'.trans hv, hf'.trans hf⟩

/-- A step keeps what START latched, and the host's side. -/
theorem StepCase.kept {s t : State} (h : StepCase s t) : t.run = s.run ∧ SameHost s t := by
  cases h with
  | outOfBounds _ => exact ⟨rfl, rfl, rfl, rfl, rfl, rfl⟩
  | limit _ _ => exact ⟨rfl, rfl, rfl, rfl, rfl, rfl⟩
  | undecodable _ _ _ _ _ => exact ⟨rfl, rfl, rfl, rfl, rfl, rfl⟩
  | ran _ _ i s' u hv hx =>
    obtain ⟨-, -, -, -, -, hrun, -, hhost⟩ := hv.kept
    obtain ⟨-, -, hrun', hhost'⟩ := (exec_cases hx).kept
    obtain ⟨-, -, -, -, -, hrun'', -, hhost''⟩ := countIfCompleted_kept u
    exact ⟨hrun''.trans (hrun'.trans hrun), (hhost.trans hhost').trans hhost''⟩

theorem fetchLine_of_run_eq {s t : State} (h : t.run = s.run) (k : Nat) : t.fetchLine k = s.fetchLine k := by
  rw [State.fetchLine, State.fetchLine, h]

theorem cached_of_dec_eq {s t : State} (h : t.dec = s.dec) (k : Nat) : t.cached k = s.cached k := by
  rw [State.cached, State.cached, h]

/-! ### Coherence -/

theorem CacheCoherent.of_eq {s t : State} (h : CacheCoherent s) (hd : t.dec = s.dec) (hr : t.run = s.run) :
    CacheCoherent t := by
  intro k i hk
  rw [fetchLine_of_run_eq hr]
  exact h k i (by rwa [cached_of_dec_eq hd] at hk)

/-- The empty cache is coherent with every program. -/
theorem cacheCoherent_withDec_nil (s : State) : CacheCoherent (s.withDec []) := by
  intro k i hk
  cases hk

/-- With a coherent cache, what the step runs is what the line at the pc decodes to, cached or not. -/
theorem Visited.decodes {s s' : State} {i : Instr} (h : Visited s i s') (hcoh : CacheCoherent s) :
    decodeLine (s.fetchLine s.pc.toNat) = .ok i := by
  cases h with
  | hit h => exact hcoh _ _ h
  | miss _ hd => exact hd

theorem Visited.cacheCoherent {s s' : State} {i : Instr} (h : Visited s i s') (hcoh : CacheCoherent s) :
    CacheCoherent s' := by
  cases h with
  | hit _ => exact hcoh
  | miss _ hd =>
    intro k j hk
    rw [State.cacheInstr_fetchLine]
    by_cases hpc : k = s.pc.toNat
    · subst hpc
      rw [State.cached_cacheInstr_same] at hk
      cases hk
      exact hd
    · rw [State.cached_cacheInstr_ne s hpc] at hk
      exact hcoh k j hk

/-- Every step keeps the cache coherent. -/
theorem StepCase.cacheCoherent {s t : State} (h : StepCase s t) (hcoh : CacheCoherent s) : CacheCoherent t := by
  cases h with
  | outOfBounds _ => exact hcoh.of_eq rfl rfl
  | limit _ _ => exact hcoh.of_eq rfl rfl
  | undecodable _ _ _ _ _ => exact hcoh.of_eq rfl rfl
  | ran _ _ i s' u hv hx =>
    obtain ⟨-, hdec, hrun, -⟩ := (exec_cases hx).kept
    obtain ⟨-, -, -, -, hdec', hrun', -⟩ := countIfCompleted_kept u
    exact (hv.cacheCoherent hcoh).of_eq (hdec'.trans hdec) (hrun'.trans hrun)

/-! ### Another cache -/

theorem State.withDec_withDec (s : State) (d d' : List (Nat × Instr)) : (s.withDec d).withDec d' = s.withDec d' := rfl

theorem State.countIfCompleted_withDec (s : State) (d : List (Nat × Instr)) :
    (s.withDec d).countIfCompleted = s.countIfCompleted.withDec d := by
  cases h : s.outcome.isFailure with
  | true => rw [countIfCompleted_of_failure h, countIfCompleted_of_failure (s := s.withDec d) h]
  | false => rw [countIfCompleted_of_not_failure h, countIfCompleted_of_not_failure (s := s.withDec d) h]; rfl

/-- The state execute sees is the state of the step with some cache. -/
theorem Visited.eq_withDec {s s' : State} {i : Instr} (h : Visited s i s') : ∃ d, s' = s.withDec d := by
  cases h with
  | hit _ => exact ⟨s.dec, rfl⟩
  | miss _ _ => exact ⟨_, rfl⟩

/-- With a coherent cache the step finds what its line decodes to. -/
theorem exists_visited {s : State} {i : Instr} (hcoh : CacheCoherent s)
    (hd : decodeLine (s.fetchLine s.pc.toNat) = .ok i) : ∃ s', Visited s i s' := by
  cases hc : s.cached s.pc.toNat with
  | none => exact ⟨_, .miss hc hd⟩
  | some j =>
    have hj := hcoh _ _ hc
    rw [hd] at hj
    cases hj
    exact ⟨s, .hit hc⟩

/-- With a coherent cache a line that fails to decode is not cached. -/
theorem cached_eq_none_of_undecodable {s : State} {k : Nat} {e : DecodeReject} (hcoh : CacheCoherent s)
    (hd : decodeLine (s.fetchLine k) = .error e) : s.cached k = none := by
  cases hc : s.cached k with
  | none => rfl
  | some i =>
    have hi := hcoh k i hc
    rw [hd] at hi
    cases hi

/-- One step from two states that differ in their coherent caches alone leads to two such states. -/
theorem step_withDec {s t : State} {d : List (Nat × Instr)} (hcoh : CacheCoherent s)
    (hcohd : CacheCoherent (s.withDec d)) (h : step s = .next t) : ∃ d', step (s.withDec d) = .next (t.withDec d') := by
  obtain ⟨hr, hc⟩ := step_cases h
  have hrd : (s.withDec d).outcome = .running := hr
  cases hc with
  | outOfBounds hb => exact ⟨d, step_outOfBounds hrd hb⟩
  | limit hb hl => exact ⟨d, step_limit hrd hb hl⟩
  | undecodable hb hl _ e hd =>
    exact ⟨d, step_undecodable hrd hb hl (cached_eq_none_of_undecodable hcohd hd) hd⟩
  | ran hb hl i s' u hv hx =>
    obtain ⟨s'', hv'⟩ := exists_visited hcohd (hv.decodes hcoh)
    obtain ⟨d₁, rfl⟩ := hv.eq_withDec
    obtain ⟨d₂, rfl⟩ := hv'.eq_withDec
    have hexec : exec i ((s.withDec d).withDec d₂) = .next (u.withDec d₂) := by
      rw [s.withDec_withDec, ← s.withDec_withDec d₁, exec_untouched (untouched_withDec d₂), hx, onNext_next]
    exact ⟨d₂, by rw [step_ran hrd hb hl hv', hexec, onNext_next, State.countIfCompleted_withDec]⟩

/-- Runs from two states that differ in their coherent caches alone end alike, the cache aside. -/
theorem run_withDec (n : Nat) {s : State} {d : List (Nat × Instr)} (hcoh : CacheCoherent s)
    (hcohd : CacheCoherent (s.withDec d)) :
    onNext (fun t => t.withDec []) (Host.Core.run Sys2Proof.core n s) =
      onNext (fun t => t.withDec []) (Host.Core.run Sys2Proof.core n (s.withDec d)) := by
  induction n generalizing s d with
  | zero => rfl
  | succ n ih =>
    by_cases hr : s.outcome = .running
    · obtain ⟨t, ht, hc⟩ := step_case hr
      obtain ⟨d', ht'⟩ := step_withDec hcoh hcohd ht
      rw [run_next ht, run_next ht']
      exact ih (hc.cacheCoherent hcoh) ((step_cases ht').2.cacheCoherent hcohd)
    · rw [run_fault (step_not_running hr), run_fault (step_not_running (s := s.withDec d) hr)]

/-- Settles O38: START empties the cache; every step keeps it coherent (`StepCase.cacheCoherent`); and dropping a coherent
cache leaves a coherent one, so the two runs go alike (`run_withDec`). -/
theorem decodeCacheIsUnobservable : Obligations.DecodeCacheIsUnobservable := by
  unfold Obligations.DecodeCacheIsUnobservable
  exact ⟨fun s k => rfl, fun s t hcoh h => (step_cases h).2.cacheCoherent hcoh,
    fun n s hcoh => run_withDec n hcoh (cacheCoherent_withDec_nil s)⟩

/-- Settles O37: what is fetched is read from what START latched, which every step keeps (`StepCase.kept`), and a write to
memory keeps it and the cache. -/
theorem storesAreNeverFetched : Obligations.StoresAreNeverFetched := by
  unfold Obligations.StoresAreNeverFetched
  refine ⟨fun s t h => ?step, fun s a v k => ⟨s.memWrite_fetchLine a v k, s.memWrite_cached a v k⟩⟩
  case step =>
    obtain ⟨hrun, hstore, -⟩ := (step_cases h).2.kept
    exact ⟨hrun, hstore, fetchLine_of_run_eq hrun⟩

end Sys2Proof.Machine
end

