-- ==== Sys2Proof/Proofs/HostInterface.lean ====
section
/-!
PROOFS. Proofs/HostInterface.lean: the host's side (70_reset_and_hazards.md R230 to R234, R245, R246): what each host move can
do, said once, and the sequences of moves that start a run.
-/

namespace Sys2Proof.Machine

/-! ### What a host move can do -/

/-- Another program store and other values of the registers the host writes. -/
def State.withConfig (s : State) (p : Program) (n : Nat) (b : Bool) (v : Nat) : State :=
  { s with store := p, progLen := n, stepLimitEn := b, stepLimitVal := v }

/-- While a run goes on a move is ignored, or it is the load of a line, which is refused. -/
theorem hostMove_running {s : State} (hr : s.outcome = .running) (c : HostCmd) :
    hostMove c s = .next s ∨ (∃ k line, c = .loadLine k line) ∧ hostMove c s = .refused .storeLocked := by
  cases c with
  | loadLine k line => exact .inr ⟨⟨k, line, rfl⟩, by rw [hostMove, if_pos hr]⟩
  | writeProgLen n => exact .inl (by rw [hostMove, if_pos hr])
  | writeStepLimitEn b => exact .inl (by rw [hostMove, if_pos hr])
  | writeStepLimitVal n => exact .inl (by rw [hostMove, if_pos hr])
  | writeOutcome v => exact .inl rfl
  | writeRetval v => exact .inl rfl
  | start => exact .inl (by rw [hostMove, if_pos hr])

section NotRunning

variable {s : State} (hn : s.outcome ≠ .running)
include hn

theorem hostMove_start : hostMove .start s = .next s.runStart := by
  rw [hostMove, if_neg hn]

theorem hostMove_loadLine {k : Nat} (hk : k < Config.progLenMax) (line : ProgLine) :
    hostMove (.loadLine k line) s =
      .next (s.withConfig (Table.insert k line s.store) s.progLen s.stepLimitEn s.stepLimitVal) := by
  rw [hostMove, if_neg hn, if_pos hk]; rfl

theorem hostMove_writeProgLen {n : Nat} (hle : n ≤ Config.progLenMax) :
    hostMove (.writeProgLen n) s = .next (s.withConfig s.store n s.stepLimitEn s.stepLimitVal) := by
  rw [hostMove, if_neg hn, if_pos hle]; rfl

theorem hostMove_writeStepLimitEn (b : Bool) :
    hostMove (.writeStepLimitEn b) s = .next (s.withConfig s.store s.progLen b s.stepLimitVal) := by
  rw [hostMove, if_neg hn]; rfl

theorem hostMove_writeStepLimitVal {v : Nat} (hlt : v < 2 ^ Config.stepLimitBits) :
    hostMove (.writeStepLimitVal v) s = .next (s.withConfig s.store s.progLen s.stepLimitEn v) := by
  rw [hostMove, if_neg hn, if_pos hlt]; rfl

/-- When no run goes on, a move other than START that has a next state writes the configuration alone. -/
theorem hostMove_config {c : HostCmd} {t : State} (hc : c ≠ .start) (h : hostMove c s = .next t) :
    ∃ p n b v, t = s.withConfig p n b v := by
  cases c with
  | loadLine k line =>
    by_cases hk : k < Config.progLenMax
    · rw [hostMove_loadLine hn hk] at h
      cases h
      exact ⟨_, _, _, _, rfl⟩
    · rw [hostMove, if_neg hn, if_neg hk] at h
      cases h
  | writeProgLen n =>
    by_cases hle : n ≤ Config.progLenMax
    · rw [hostMove_writeProgLen hn hle] at h
      cases h
      exact ⟨_, _, _, _, rfl⟩
    · rw [hostMove, if_neg hn, if_neg hle] at h
      cases h
  | writeStepLimitEn b =>
    rw [hostMove_writeStepLimitEn hn] at h
    cases h
    exact ⟨_, _, _, _, rfl⟩
  | writeStepLimitVal v =>
    by_cases hlt : v < 2 ^ Config.stepLimitBits
    · rw [hostMove_writeStepLimitVal hn hlt] at h
      cases h
      exact ⟨_, _, _, _, rfl⟩
    · rw [hostMove, if_neg hn, if_neg hlt] at h
      cases h
  | writeOutcome v =>
    cases h
    exact ⟨s.store, s.progLen, s.stepLimitEn, s.stepLimitVal, rfl⟩
  | writeRetval v =>
    cases h
    exact ⟨s.store, s.progLen, s.stepLimitEn, s.stepLimitVal, rfl⟩
  | start => exact absurd rfl hc

end NotRunning

theorem eq_of_hostMove_running {c : HostCmd} {s t : State} (hr : s.outcome = .running) (h : hostMove c s = .next t) :
    t = s := by
  rcases hostMove_running hr c with heq | ⟨-, heq⟩
  · rw [heq] at h
    cases h
    rfl
  · rw [heq] at h
    cases h

/-- Every way in which a host move leads to its next state. -/
theorem hostMove_cases {c : HostCmd} {s t : State} (h : hostMove c s = .next t) :
    t = s ∨ t = s.runStart ∨ ∃ p n b v, t = s.withConfig p n b v := by
  by_cases hr : s.outcome = .running
  · exact .inl (eq_of_hostMove_running hr h)
  · by_cases hc : c = .start
    · subst hc
      rw [hostMove_start hr] at h
      cases h
      exact .inr (.inl rfl)
    · exact .inr (.inr (hostMove_config hr hc h))

/-- Settles O45: a move during a run is ignored or refused (`hostMove_running`), and outside a run a move other than START
writes the configuration alone (`hostMove_config`). -/
theorem hostCannotDisturbARun : Obligations.HostCannotDisturbARun := by
  unfold Obligations.HostCannotDisturbARun
  refine ⟨fun c s t hr h => eq_of_hostMove_running hr h, fun n b s hr => ?ignored, fun s v w => ⟨rfl, rfl⟩,
    fun k line s t hr h => ?load, fun c s t hn hc h => ?config⟩
  case ignored =>
    have hignored : ∀ c, (∀ k line, c ≠ .loadLine k line) → hostMove c s = .next s := fun c hc =>
      (hostMove_running hr c).resolve_right fun ⟨⟨k, line, hload⟩, _⟩ => hc k line hload
    exact ⟨hignored _ nofun, hignored _ nofun, hignored _ nofun, hignored _ nofun⟩
  case load =>
    rw [hostMove, if_pos hr] at h
    cases h
  case config =>
    obtain ⟨p, n, b, v, rfl⟩ := hostMove_config hn hc h
    exact ⟨⟨rfl, rfl⟩, fun _ => rfl, fun _ => rfl, rfl, rfl, rfl, rfl⟩

/-! ### Run start (70_reset_and_hazards.md R230) -/

@[simp] theorem State.runStart_reg (s : State) (r : Reg) : s.runStart.reg r = 0 := Vector.getElem_replicate ..

@[simp] theorem State.runStart_memRead (s : State) (a : Nat) : s.runStart.memRead a = 0 := rfl

@[simp] theorem State.runStart_cached (s : State) (k : Nat) : s.runStart.cached k = none := rfl

theorem State.runStart_limit (s : State) :
    s.runStart.run.limit = if s.stepLimitEn = true then some s.stepLimitVal else none := rfl

theorem State.runStart_fetchLine (s : State) (k : Nat) :
    s.runStart.fetchLine k = (Table.find k s.store).getD (Config.unloadedLine k) := rfl

/-- Settles O42: outside a run START answers the run-start state (`hostMove_start`). -/
theorem startSetsTheRunState : Obligations.StartSetsTheRunState := by
  unfold Obligations.StartSetsTheRunState
  exact fun s hn => ⟨_, hostMove_start hn, s.runStart_reg, rfl, s.runStart_memRead, rfl, s.runStart_cached, rfl, rfl, rfl,
    rfl, s.runStart_limit, rfl, rfl, rfl, rfl⟩

/-- What a started run is depends on the program store, PROG_LEN and the step limit alone. -/
theorem runStart_sameUpToHostSide {s s' : State} (hstore : s'.store = s.store) (hlen : s'.progLen = s.progLen)
    (hlimit : s'.runStart.run.limit = s.runStart.run.limit) : SameUpToHostSide s.runStart s'.runStart := by
  refine ⟨rfl, rfl, rfl, rfl, rfl, rfl, ?_⟩
  show RunParams.mk s'.store s'.progLen s'.runStart.run.limit = RunParams.mk s.store s.progLen s.runStart.run.limit
  rw [hstore, hlen, hlimit]

/-! ### Sequences of host moves

No move before START changes OUTCOME, so `hn` holds of every state on the way; `by exact hn` reads it there once that state
is known. -/

theorem hostMoves_cons {c : HostCmd} {s t : State} (h : hostMove c s = .next t) (cs : List HostCmd) :
    hostMoves (c :: cs) s = hostMoves cs t := by
  rw [hostMoves, h]

theorem hostMoves_append {cs : List HostCmd} {s t : State} (h : hostMoves cs s = .next t) (ds : List HostCmd) :
    hostMoves (cs ++ ds) s = hostMoves ds t := by
  induction cs generalizing s with
  | nil =>
    cases h
    rfl
  | cons c cs ih =>
    rw [List.cons_append]
    rw [hostMoves] at h ⊢
    split at h
    · exact ih h
    · cases h
    · cases h

/-- A write of PROG_LEN and START outside a run. -/
theorem hostMoves_progLen_start {s : State} {n : Nat} (hn : s.outcome ≠ .running) (hle : n ≤ Config.progLenMax) :
    hostMoves [.writeProgLen n, .start] s =
      .next (s.withConfig s.store n s.stepLimitEn s.stepLimitVal).runStart :=
  (hostMoves_cons (hostMove_writeProgLen hn hle) _).trans (hostMoves_cons (hostMove_start (by exact hn)) _)

/-- Settles O43: with the step limit off at power-on, the run started depends on the program store and PROG_LEN alone
(`runStart_sameUpToHostSide`). -/
theorem powerOnValuesCannotBeObserved : Obligations.PowerOnValuesCannotBeObserved := by
  unfold Obligations.PowerOnValuesCannotBeObserved
  rintro s s' n ⟨hidle, hen⟩ ⟨hidle', hen'⟩ hstore hle
  have hn : s.outcome ≠ .running := by rw [hidle]; decide
  have hn' : s'.outcome ≠ .running := by rw [hidle']; decide
  have hinf : ∀ u : State, u.stepLimitEn = false →
      (u.withConfig u.store n u.stepLimitEn u.stepLimitVal).runStart.run.limit = none := by
    intro u hu
    rw [State.runStart_limit, if_neg]
    rw [State.withConfig, hu]
    decide
  refine ⟨by rw [hostReadOutcome, hidle]; rfl, _, _, hostMoves_progLen_start hn hle, hostMoves_progLen_start hn' hle,
    hinf s hen, runStart_sameUpToHostSide hstore rfl ?_⟩
  rw [hinf s hen, hinf s' hen']

/-! ### Loading a program (70_reset_and_hazards.md R233) -/

/-- The program store after the loads of lines from index `k` on. -/
def placeLines (k : Nat) : List ProgLine → Program → Program
  | [], p => p
  | line :: rest, p => placeLines (k + 1) rest (Table.insert k line p)

theorem find_placeLines_of_lt {j k : Nat} (h : j < k) (lines : List ProgLine) (p : Program) :
    Table.find j (placeLines k lines p) = Table.find j p := by
  induction lines generalizing k p with
  | nil => rfl
  | cons line rest ih => rw [placeLines, ih (by omega), Table.find_insert_ne (by omega)]

theorem find_placeLines {j : Nat} {lines : List ProgLine} (h : j < lines.length) (k : Nat) (p : Program) :
    Table.find (k + j) (placeLines k lines p) = some lines[j] := by
  induction lines generalizing j k p with
  | nil => simp at h
  | cons line rest ih =>
    rw [placeLines]
    cases j with
    | zero => rw [Nat.add_zero, find_placeLines_of_lt (Nat.lt_succ_self k), Table.find_insert_same]; rfl
    | succ j =>
      have hj : j < rest.length := by simpa using h
      rw [show k + (j + 1) = k + 1 + j by omega, ih hj]; rfl

/-- The loads of lines that fit in the program store place them there and do nothing else. -/
theorem hostMoves_loadLines {k : Nat} {lines : List ProgLine} {s : State} (hn : s.outcome ≠ .running)
    (hfit : k + lines.length ≤ Config.progLenMax) :
    hostMoves (loadLines k lines) s =
      .next (s.withConfig (placeLines k lines s.store) s.progLen s.stepLimitEn s.stepLimitVal) := by
  induction lines generalizing k s with
  | nil => rfl
  | cons line rest ih =>
    rw [List.length_cons] at hfit
    have hk : k < Config.progLenMax := by omega
    have hrest : k + 1 + rest.length ≤ Config.progLenMax := by omega
    exact (hostMoves_cons (hostMove_loadLine hn hk line) _).trans (ih (by exact hn) hrest)

/-- The whole sequence: the program store holds the lines, PROG_LEN and the step limit are as written, and the run
starts. -/
theorem hostMoves_loadCommands {lines : List ProgLine} {limit : Option Nat} {s : State} (hn : s.outcome ≠ .running)
    (hfit : lines.length ≤ Config.progLenMax) (hlimit : ∀ k, limit = some k → k < 2 ^ Config.stepLimitBits) :
    hostMoves (loadCommands lines limit) s = .next
      (s.withConfig (placeLines 0 lines s.store) lines.length limit.isSome (limit.getD s.stepLimitVal)).runStart := by
  have hfit0 : 0 + lines.length ≤ Config.progLenMax := by omega
  refine (hostMoves_append (hostMoves_loadLines hn hfit0) _).trans ?_
  refine (hostMoves_cons (hostMove_writeProgLen (by exact hn) hfit) _).trans ?_
  cases limit with
  | none =>
    refine (hostMoves_cons (hostMove_writeStepLimitEn (by exact hn) _) _).trans ?_
    exact hostMoves_cons (hostMove_start (by exact hn)) _
  | some k =>
    refine (hostMoves_cons (hostMove_writeStepLimitEn (by exact hn) _) _).trans ?_
    refine (hostMoves_cons (hostMove_writeStepLimitVal (by exact hn) (hlimit k rfl)) _).trans ?_
    exact hostMoves_cons (hostMove_start (by exact hn)) _

/-- Settles O46: the sequence writes exactly the lines, PROG_LEN and the step limit before START latches them
(`hostMoves_loadCommands`), and each line is found at its index (`find_placeLines`). -/
theorem loadSequenceStartsTheProgram : Obligations.LoadSequenceStartsTheProgram := by
  unfold Obligations.LoadSequenceStartsTheProgram
  intro lines limit s hn hfit hlimit
  refine ⟨_, hostMoves_loadCommands hn hfit hlimit, rfl, rfl, rfl, ?limit, fun k hk => ?line, State.runStart_reg _,
    State.runStart_memRead _, rfl, State.runStart_cached _⟩
  case limit =>
    rw [State.runStart_limit]
    cases limit with
    | none => rfl
    | some k => rfl
  case line =>
    have hfind := find_placeLines hk 0 s.store
    rw [Nat.zero_add] at hfind
    rw [State.runStart_fetchLine, State.withConfig, hfind, Option.getD_some]

end Sys2Proof.Machine
end

