-- ==== Sys2Proof/Proofs/RunInvariant.lean ====
section
/-!
PROOFS. Proofs/RunInvariant.lean: the invariant of a run (`RunInv`): it holds at reset, and each part of a step keeps it: the
visit of a line, the instruction, the raise of an outcome, the count.
-/

namespace Sys2Proof.Machine

/-- The run-start values of 10_state.md R37 satisfy the invariant, whatever was latched. -/
theorem runInv_of_runStartValues {s : State} (hx : s.x = Vector.replicate Config.nreg 0) (hmem : s.mem = [])
    (hdec : s.dec = []) (hpc : s.pc = 0) (hsteps : s.steps = 0) (hout : s.outcome = .running) : RunInv s where
  regsInV r := by
    have hr : s.reg r = 0 := by simp [State.reg, hx]
    rw [hr]
    decide
  cellsInV a := by
    rw [State.memRead, hmem, Memory.read_nil]
    decide
  memCanonical := by
    rw [hmem]
    exact Memory.wf_reset
  memAddresses := by simp [hmem]
  cacheSorted := by
    rw [hdec]
    exact List.Pairwise.nil
  cacheCoherent := (cacheCoherent_withDec_nil s).of_eq hdec rfl
  pcRange := by omega
  stepsWithinLimit k _ := by omega
  retvalInV hret := by
    rw [hout] at hret
    cases hret

/-- Settles O39: the machine at reset holds the run-start values. -/
theorem resetSatisfiesTheRunInvariant : Obligations.ResetSatisfiesTheRunInvariant := by
  unfold Obligations.ResetSatisfiesTheRunInvariant
  exact runInv_of_runStartValues rfl rfl rfl rfl rfl rfl

/-! ### The parts of a step -/

/-- What the decoder accepts is well-formed, in both forms of a line. -/
theorem decodeLine_wellFormed {line : ProgLine} {i : Instr} (h : decodeLine line = .ok i) : i.WellFormed := by
  cases line with
  | text s => exact Laws.decodeText_wellFormed h
  | word w => exact Laws.decodeWord_wellFormed h

theorem RunInv.setOutcome {s : State} {k : OutcomeCode} (h : RunInv s) (hk : k ≠ .returned) : RunInv (s.setOutcome k) :=
  { h with retvalInV := fun hret => absurd hret hk }

theorem RunInv.visited {s s' : State} {i : Instr} (h : RunInv s) (hv : Visited s i s') : RunInv s' := by
  have hcoh := hv.cacheCoherent h.cacheCoherent
  cases hv with
  | hit _ => exact h
  | miss _ _ => exact { h with cacheSorted := Table.sorted_insert h.cacheSorted _ _, cacheCoherent := hcoh }

/-- A jump within the range a hardware pc must hold keeps the invariant. -/
theorem RunInv.setPc {s : State} {p : Int} (h : RunInv s) (hp : -65535 ≤ p ∧ p ≤ (s.run.n : Int) - 1 + 65535) :
    RunInv (s.setPc p) :=
  { h with pcRange := hp }

theorem RunInv.advance {s : State} (h : RunInv s) (hb : s.InBounds) : RunInv s.advance :=
  h.setPc (by obtain ⟨h0, hn⟩ := hb; omega)

theorem RunInv.setReg {s : State} {v : Int} (h : RunInv s) (hv : InV v) (r : Reg) : RunInv (s.setReg r v) :=
  { h with
    regsInV := fun q => by
      rw [State.reg_setReg]
      split
      · exact hv
      · exact h.regsInV q }

theorem RunInv.memWrite {s : State} {a : Nat} {v : Int} (h : RunInv s) (ha : InA (a : Int)) (hv : InV v) :
    RunInv (s.memWrite a v) :=
  { h with
    cellsInV := fun b => by
      by_cases hba : b = a
      · rw [hba, State.memRead_memWrite_same]
        exact hv
      · rw [State.memRead_memWrite_ne s hba]
        exact h.cellsInV b
    memCanonical := Memory.wf_write h.memCanonical a v
    memAddresses := fun e he => by
      rcases Memory.mem_write he with heq | hmem
      · rw [heq]
        exact ha
      · exact h.memAddresses e hmem }

theorem RunInv.haltReturn {s : State} {v : Int} (h : RunInv s) (hv : InV v) : RunInv (s.haltReturn v) :=
  { h with
    retvalInV := fun _ => by
      have hval : (s.haltReturn v).retval.toInt = v := Laws.toInt_immBits hv
      rw [hval]
      exact hv }

/-- The target of a branch of a line in bounds, its offset in range, stays in the range a hardware pc must hold. -/
theorem branchTarget_inRange {s : State} {off : Int} (hb : s.InBounds) (ho : OffOk off) :
    -65535 ≤ s.pc + off ∧ s.pc + off ≤ (s.run.n : Int) - 1 + 65535 := by
  obtain ⟨h0, hn⟩ := hb
  obtain ⟨hlo, hhi⟩ : -65535 ≤ off ∧ off ≤ 65535 := ho
  omega

/-- A well-formed instruction at a line in bounds keeps the invariant. -/
theorem RunInv.effect {i : Instr} {s t : State} (h : RunInv s) (hw : i.WellFormed) (hb : s.InBounds)
    (he : Effect i s t) : RunInv t := by
  cases he with
  | wrote rd v _ hv _ => exact (h.setReg (hv h.regsInV h.cellsInV hw) rd).advance hb
  | stored rbase off rval _ ha =>
    refine RunInv.advance (h.memWrite ?_ (h.regsInV rval)) hb
    rwa [Int.toNat_of_nonneg ha.1]
  | skipped _ => exact h.advance hb
  | jumped p hp =>
    rcases hp with ⟨off, rfl, rfl⟩ | ⟨rcond, off, rfl, rfl⟩
    · exact h.setPc (branchTarget_inRange hb (of_decide_eq_true hw))
    · split
      · exact h.setPc (branchTarget_inRange hb (of_decide_eq_true hw))
      · exact h.advance hb
  | halted rs _ => exact h.haltReturn (h.regsInV rs)
  | raised k hk =>
    refine h.setOutcome ?_
    rcases hk with ⟨rfl, -⟩ | ⟨rfl, -⟩ <;> decide

theorem RunInv.countIfCompleted {s : State} (h : RunInv s)
    (hsteps : ∀ k, s.run.limit = some k → s.countIfCompleted.steps ≤ k) : RunInv s.countIfCompleted := by
  cases hf : s.outcome.isFailure with
  | true => rwa [countIfCompleted_of_failure hf]
  | false =>
    rw [countIfCompleted_of_not_failure hf] at hsteps ⊢
    exact { h with stepsWithinLimit := hsteps }

/-- Settles O40: a step raises an outcome or visits its line, runs the instruction, which is well-formed since it was decoded,
and counts within the limit (`StepCase.steps_le`); each of these keeps the invariant. -/
theorem stepKeepsTheRunInvariant : Obligations.StepKeepsTheRunInvariant := by
  unfold Obligations.StepKeepsTheRunInvariant
  intro s t h hstep
  obtain ⟨-, hc⟩ := step_cases hstep
  have hsteps : ∀ k, s.run.limit = some k → t.steps ≤ k := fun k hk => hc.steps_le hk (h.stepsWithinLimit k hk)
  cases hc with
  | outOfBounds _ => exact h.setOutcome (by decide)
  | limit _ _ => exact h.setOutcome (by decide)
  | undecodable _ _ _ _ _ => exact h.setOutcome (by decide)
  | ran hb _ i s' u hv hx =>
    have hw : i.WellFormed := decodeLine_wellFormed (hv.decodes h.cacheCoherent)
    obtain ⟨hpc, -, -, -, -, hrun, -⟩ := hv.kept
    have hb' : s'.InBounds := by rwa [State.InBounds, hpc, hrun]
    have heffect := exec_cases hx
    obtain ⟨-, -, hrun', -⟩ := heffect.kept
    refine ((h.visited hv).effect hw hb' heffect).countIfCompleted ?_
    rwa [hrun', hrun]

/-! ### Host moves -/

theorem runInv_runStart (s : State) : RunInv s.runStart := runInv_of_runStartValues rfl rfl rfl rfl rfl rfl

/-- The invariant does not read what the host writes. -/
theorem RunInv.withConfig {s : State} (h : RunInv s) (p : Program) (n : Nat) (b : Bool) (v : Nat) :
    RunInv (s.withConfig p n b v) :=
  { h with }

/-- Settles O41: a host move does nothing, starts a run, or writes the configuration (`hostMove_cases`). -/
theorem hostMovesKeepTheRunInvariant : Obligations.HostMovesKeepTheRunInvariant := by
  unfold Obligations.HostMovesKeepTheRunInvariant
  refine ⟨fun s t hn h => ?start, fun c s t hinv h => ?keep⟩
  case start =>
    rw [hostMove_start hn] at h
    cases h
    exact runInv_runStart s
  case keep =>
    rcases hostMove_cases h with rfl | rfl | ⟨p, n, b, v, rfl⟩
    · exact hinv
    · exact runInv_runStart s
    · exact hinv.withConfig p n b v

end Sys2Proof.Machine
end

