-- ==== Sys2Proof/Proofs/EngineSteps.lean ====
section
/-!
PROOFS. Proofs/EngineSteps.lean: the steps of a run (40_engine.md section 1): which instruction a step runs and when a line is
decoded, what a failing step leaves alone, and that a run makes progress and ends under a finite step limit.
-/

namespace Sys2Proof.Machine

/-! ### The instruction a step runs (40_engine.md R103) -/

/-- Settles O27: the cache or the first decode says which instruction the step runs (`step_ran`). -/
theorem stepRunsTheDecodedInstruction : Obligations.StepRunsTheDecodedInstruction := by
  unfold Obligations.StepRunsTheDecodedInstruction
  exact fun s i hr hb hl => ⟨fun hc hd => step_ran hr hb hl (.miss hc hd), fun hc => step_ran hr hb hl (.hit hc)⟩

theorem decodeWord_of_decodeTableWord {nbits w : Nat} {i : Instr} (h : decodeTableWord nbits w = some i) :
    decodeWord (tableWord nbits w) = .ok i := by
  unfold decodeTableWord at h
  split at h
  · rename_i j hj
    cases h
    exact hj
  · cases h

theorem withFetchWord_inBounds (s : State) (nbits w : Nat) : (s.withFetchWord nbits w).InBounds := by
  refine ⟨Int.natCast_nonneg _, ?_⟩
  show ((s.pc.toNat : Nat) : Int) < ((max s.run.n (s.pc.toNat + 1) : Nat) : Int)
  omega

theorem withFetchWord_not_limitReached (s : State) (nbits w : Nat) : ¬ (s.withFetchWord nbits w).LimitReached := by
  show ¬ (if s.run.limit = some s.steps then none else s.run.limit) = some s.steps
  split
  · nofun
  · assumption

/-- The step after a word is placed decodes it for the first time. -/
theorem withFetchWord_visited {s : State} {nbits w : Nat} {i : Instr} (h : decodeTableWord nbits w = some i) :
    Visited (s.withFetchWord nbits w) i
      ((s.withFetchWord nbits w).cacheInstr (s.withFetchWord nbits w).pc.toNat i) := by
  refine .miss (Table.find_erase_same s.pc.toNat s.dec) ?_
  have hline : (s.withFetchWord nbits w).fetchLine s.pc.toNat = .word (tableWord nbits w) := by
    rw [State.fetchLine, State.withFetchWord, Table.find_insert_same, Option.getD_some]
  show decodeLine ((s.withFetchWord nbits w).fetchLine s.pc.toNat) = .ok i
  rw [hline]
  exact decodeWord_of_decodeTableWord h

/-- Settles O48: the state with the word placed passes the checks, and its line is not yet decoded
(`withFetchWord_visited`). -/
theorem withFetchWordRunsThatInstruction : Obligations.WithFetchWordRunsThatInstruction := by
  unfold Obligations.WithFetchWordRunsThatInstruction
  exact fun s w i h =>
    step_ran rfl (withFetchWord_inBounds s 32 w) (withFetchWord_not_limitReached s 32 w) (withFetchWord_visited h)

/-! ### First visit (40_engine.md R103) -/

/-- The visit of a line changes the cache at that line alone, and only if it was not cached. -/
theorem Visited.cached_ne {s s' : State} {i : Instr} {k : Nat} (h : Visited s i s') (hne : s'.cached k ≠ s.cached k) :
    k = s.pc.toNat ∧ s.cached k = none ∧ decodeLine (s.fetchLine k) = .ok i ∧ s'.cached k = some i := by
  cases h with
  | hit _ => exact absurd rfl hne
  | miss hc hd =>
    have hk : k = s.pc.toNat := by
      by_contra hk
      exact hne (s.cached_cacheInstr_ne hk i)
    subst hk
    exact ⟨rfl, hc, hd, s.cached_cacheInstr_same _ i⟩

/-- A step that changes the cache at a line decodes that line, at the pc, for the first time. -/
theorem StepCase.cached_ne {s t : State} {k : Nat} (h : StepCase s t) (hne : t.cached k ≠ s.cached k) :
    (k : Int) = s.pc ∧ s.cached k = none ∧ ∃ i, decodeLine (s.fetchLine k) = .ok i ∧ t.cached k = some i := by
  cases h with
  | outOfBounds _ => exact absurd rfl hne
  | limit _ _ => exact absurd rfl hne
  | undecodable _ _ _ _ _ => exact absurd rfl hne
  | ran hb _ i s' u hv hx =>
    obtain ⟨-, hdec, -⟩ := (exec_cases hx).kept
    obtain ⟨-, -, -, -, hdec', -⟩ := countIfCompleted_kept u
    have hcached : u.countIfCompleted.cached k = s'.cached k := cached_of_dec_eq (hdec'.trans hdec) k
    rw [hcached] at hne ⊢
    obtain ⟨hk, hnone, hd, hnew⟩ := hv.cached_ne hne
    exact ⟨by rw [hk, Int.toNat_of_nonneg hb.1], hnone, i, hd, hnew⟩

theorem fetchLine_withLine_ne (s : State) {k j : Nat} (h : j ≠ k) (line : ProgLine) :
    (s.withLine k line).fetchLine j = s.fetchLine j := by
  rw [State.fetchLine, State.withLine, Table.find_insert_ne h, State.fetchLine]

theorem State.countIfCompleted_withLine (s : State) (k : Nat) (line : ProgLine) :
    (s.withLine k line).countIfCompleted = s.countIfCompleted.withLine k line := by
  cases h : s.outcome.isFailure with
  | true => rw [countIfCompleted_of_failure h, countIfCompleted_of_failure (s := s.withLine k line) h]
  | false => rw [countIfCompleted_of_not_failure h, countIfCompleted_of_not_failure (s := s.withLine k line) h]; rfl

theorem Visited.withLine {s s' : State} {i : Instr} {k : Nat} (h : Visited s i s') (hk : s.pc.toNat ≠ k)
    (line : ProgLine) : Visited (s.withLine k line) i (s'.withLine k line) := by
  cases h with
  | hit h => exact .hit h
  | miss h hd => exact .miss h (by rwa [← fetchLine_withLine_ne s hk line] at hd)

/-- A line other than the one at the pc does not affect the step. -/
theorem step_withLine {s t : State} {k : Nat} (hk : (k : Int) ≠ s.pc) (line : ProgLine) (h : step s = .next t) :
    step (s.withLine k line) = .next (t.withLine k line) := by
  obtain ⟨hr, hc⟩ := step_cases h
  have hrl : (s.withLine k line).outcome = .running := hr
  have hne : s.InBounds → s.pc.toNat ≠ k := fun hb heq => hk (by rw [← heq, Int.toNat_of_nonneg hb.1])
  cases hc with
  | outOfBounds hb => exact step_outOfBounds hrl hb
  | limit hb hl => exact step_limit hrl hb hl
  | undecodable hb hl hc e hd =>
    exact step_undecodable hrl hb hl hc (by rwa [← fetchLine_withLine_ne s (hne hb) line] at hd)
  | ran hb hl i s' u hv hx =>
    have hexec : exec i (s'.withLine k line) = .next (u.withLine k line) := by
      rw [exec_untouched (untouched_withLine k line), hx, onNext_next]
    rw [step_ran hrl hb hl (hv.withLine (hne hb) line), hexec, onNext_next, State.countIfCompleted_withLine]

/-- Settles O30: a failed decode raises alone (`step_undecodable`), a step adds to the cache the first decode of its line
(`StepCase.cached_ne`), and no other line affects it (`step_withLine`). -/
theorem linesAreDecodedOnFirstVisit : Obligations.LinesAreDecodedOnFirstVisit := by
  unfold Obligations.LinesAreDecodedOnFirstVisit
  exact ⟨fun s e hr hb hl hc hd => ⟨_, step_undecodable hr hb hl hc hd, onlyOutcome_setOutcome _ s⟩,
    fun s t k h hne => (step_cases h).2.cached_ne hne, fun s t k line h hk => step_withLine hk line h⟩

/-! ### Failures (60_exceptions.md section 2) -/

/-- An instruction that leaves a running state in a failure has raised it and done nothing else. -/
theorem Effect.eq_setOutcome {i : Instr} {s t : State} (h : Effect i s t) (hr : s.outcome = .running)
    (hf : t.outcome.isFailure = true) : t = s.setOutcome t.outcome := by
  have hrunning : s.outcome.isFailure ≠ true := by rw [hr]; decide
  cases h with
  | wrote _ _ _ _ _ => exact absurd hf hrunning
  | stored _ _ _ _ _ => exact absurd hf hrunning
  | skipped _ => exact absurd hf hrunning
  | jumped _ _ => exact absurd hf hrunning
  | halted _ _ => cases hf
  | raised k _ => rfl

/-- A step that ends in a failure sets OUTCOME and does nothing else, but for the cache, which may have gained the decode of
its line. -/
theorem StepCase.eq_setOutcome {s t : State} (h : StepCase s t) (hr : s.outcome = .running)
    (hf : t.outcome.isFailure = true) :
    ∃ d, t = (s.withDec d).setOutcome t.outcome ∧
      (d = s.dec ∨ ∃ i, decodeLine (s.fetchLine s.pc.toNat) = .ok i ∧ d = (s.cacheInstr s.pc.toNat i).dec) := by
  cases h with
  | outOfBounds _ => exact ⟨s.dec, rfl, .inl rfl⟩
  | limit _ _ => exact ⟨s.dec, rfl, .inl rfl⟩
  | undecodable _ _ _ _ _ => exact ⟨s.dec, rfl, .inl rfl⟩
  | ran _ _ i s' u hv hx =>
    obtain ⟨-, -, -, hrun, -⟩ := hv.kept
    obtain ⟨-, -, -, hout, -⟩ := countIfCompleted_kept u
    rw [hout] at hf
    rw [countIfCompleted_of_failure hf]
    have hset := (exec_cases hx).eq_setOutcome (hrun.trans hr) hf
    cases hv with
    | hit _ => exact ⟨s.dec, hset, .inl rfl⟩
    | miss _ hd => exact ⟨_, hset, .inr ⟨i, hd, rfl⟩⟩

/-- Settles O33: a failing instruction has only raised (`Effect.eq_setOutcome`), and so has a failing step but for the
decode of its line (`StepCase.eq_setOutcome`). -/
theorem failuresArePrecise : Obligations.FailuresArePrecise := by
  unfold Obligations.FailuresArePrecise
  refine ⟨fun i s t hr h hf => ?exec, fun s t h hf => ?step⟩
  case exec =>
    rw [(exec_cases h).eq_setOutcome hr hf]
    exact onlyOutcome_setOutcome _ s
  case step =>
    obtain ⟨hr, hc⟩ := step_cases h
    obtain ⟨d, heq, hd⟩ := hc.eq_setOutcome hr hf
    rw [heq]
    exact ⟨fun _ => rfl, fun _ => rfl, rfl, rfl, rfl, rfl, ⟨rfl, rfl, rfl, rfl, rfl⟩, hd⟩

/-! ### Progress and the end of a run (40_engine.md R102) -/

/-- A step never leads to IDLE. -/
theorem StepCase.outcome_ne_idle {s t : State} (h : StepCase s t) (hr : s.outcome = .running) : t.outcome ≠ .idle := by
  cases h with
  | outOfBounds _ => nofun
  | limit _ _ => nofun
  | undecodable _ _ _ _ _ => nofun
  | ran _ _ i s' u hv hx =>
    intro hidle
    have hmem := hv.outcome_mem hr hx
    rw [hidle] at hmem
    exact absurd hmem (by decide)

/-- A step either goes on, with one more instruction completed, or ends the run. -/
theorem StepCase.progress {s t : State} (h : StepCase s t) (hr : s.outcome = .running) :
    (t.outcome = .running ∧ t.steps = s.steps + 1) ∨ t.outcome.isTerminal = true := by
  by_cases ht : t.outcome = .running
  · have hsteps := h.steps
    rw [ht] at hsteps
    exact .inl ⟨ht, hsteps⟩
  · exact .inr ((OutcomeCode.isTerminal_iff _).2 ⟨ht, h.outcome_ne_idle hr⟩)

/-- Settles O35: a running state has a next state (`step_case`), which goes on or is terminal (`StepCase.progress`). -/
theorem runningStepMakesProgress : Obligations.RunningStepMakesProgress := by
  unfold Obligations.RunningStepMakesProgress
  intro s hr
  obtain ⟨t, ht, hc⟩ := step_case hr
  exact ⟨t, ht, hc.progress hr⟩

/-- A run with `d` instructions still allowed ends within `d + 1` steps. -/
theorem exists_terminal_run {d k : Nat} {s : State} (hr : s.outcome = .running) (hk : s.run.limit = some k)
    (hle : s.steps ≤ k) (hd : k - s.steps = d) :
    ∃ m t, m ≤ d + 1 ∧ Host.Core.run Sys2Proof.core m s = .next t ∧ t.outcome.isTerminal = true ∧ t.steps ≤ k := by
  induction d generalizing s with
  | zero =>
    obtain ⟨t, ht, hc⟩ := step_case hr
    have hle' := hc.steps_le hk hle
    rcases hc.progress hr with ⟨-, hsteps⟩ | hterm
    · omega
    · exact ⟨1, t, le_rfl, run_next ht, hterm, hle'⟩
  | succ d ih =>
    obtain ⟨t, ht, hc⟩ := step_case hr
    have hle' := hc.steps_le hk hle
    rcases hc.progress hr with ⟨hrun, hsteps⟩ | hterm
    · obtain ⟨hlatched, -⟩ := hc.kept
      obtain ⟨m, u, hm, hu, hterm, hsteps'⟩ := ih hrun (by rw [hlatched, hk]) hle' (by omega)
      exact ⟨m + 1, u, by omega, by rw [run_next ht, hu], hterm, hsteps'⟩
    · exact ⟨1, t, by omega, run_next ht, hterm, hle'⟩

/-- Settles O36: by induction on the number of instructions still allowed (`exists_terminal_run`). -/
theorem runWithStepLimitEnds : Obligations.RunWithStepLimitEnds := by
  unfold Obligations.RunWithStepLimitEnds
  exact fun s k hr hk hle => exists_terminal_run hr hk hle rfl

end Sys2Proof.Machine
end

