-- ==== Sys2Proof/Proofs/HostSide.lean ====
section
/-!
PROOFS. Proofs/HostSide.lean: a run does not depend on the host's side (40_engine.md section 2): two states that differ in
RETVAL, the program store and the interface registers alone run alike, and the host observes the same of both.
-/

namespace Sys2Proof.Machine

/-- RETVAL and what the host's side of the interface holds, taken from another state. -/
def State.withHostOf (s h : State) : State :=
  { s with
    store := h.store
    retval := h.retval
    progLen := h.progLen
    stepLimitEn := h.stepLimitEn
    stepLimitVal := h.stepLimitVal
    freeCount := h.freeCount }

theorem sameUpToHostSide_withHostOf (s h : State) : SameUpToHostSide s (s.withHostOf h) :=
  ⟨rfl, rfl, rfl, rfl, rfl, rfl, rfl⟩

/-- Two states that may differ in the host's side alone. -/
theorem SameUpToHostSide.eq_withHostOf {s s' : State} (h : SameUpToHostSide s s') : s' = s.withHostOf s' := by
  obtain ⟨hpc, hx, hmem, hout, hsteps, hdec, hrun⟩ := h
  rw [State.withHostOf, ← hpc, ← hx, ← hmem, ← hout, ← hsteps, ← hdec, ← hrun]

/-! ### One step -/

theorem writeResult_withHostOf (rd : Reg) (v : Int) (s h : State) :
    writeResult rd v (s.withHostOf h) = onNext (·.withHostOf h) (writeResult rd v s) := by
  by_cases hv : InV v
  · rw [writeResult_inV hv, writeResult_inV hv]; rfl
  · rw [writeResult_not_inV hv, writeResult_not_inV hv]; rfl

/-- An instruction other than RET neither reads nor writes the host's side. -/
theorem exec_withHostOf {i : Instr} (hi : i.opcode ≠ .ret) (s h : State) :
    exec i (s.withHostOf h) = onNext (·.withHostOf h) (exec i s) := by
  cases i with
  | mov rd imm => rfl
  | ret rs => exact absurd rfl hi
  | add rd rs1 rs2 => exact writeResult_withHostOf ..
  | sub rd rs1 rs2 => exact writeResult_withHostOf ..
  | mul rd rs1 rs2 => exact writeResult_withHostOf ..
  | div rd rs1 rs2 =>
    by_cases h0 : s.reg rs2 = 0
    · rw [exec_div_zero h0, exec_div_zero (s := s.withHostOf h) h0]; rfl
    · rw [exec_div_nonzero h0, exec_div_nonzero (s := s.withHostOf h) h0]; rfl
  | str rbase off rval =>
    show Host.Outcome.next ((s.withHostOf h).storeCell (s.reg rbase + off) (s.reg rval)).advance = _
    by_cases ha : InA (s.reg rbase + off)
    · rw [exec_str, storeCell_inA ha, storeCell_inA ha]; rfl
    · rw [exec_str, storeCell_not_inA ha, storeCell_not_inA ha]; rfl
  | ldr rdest rbase off =>
    show Host.Outcome.next ((s.withHostOf h).loadCell rdest (s.reg rbase + off)).advance = _
    by_cases ha : InA (s.reg rbase + off)
    · rw [exec_ldr, loadCell_inA ha, loadCell_inA ha]; rfl
    · rw [exec_ldr, loadCell_not_inA ha, loadCell_not_inA ha]; rfl
  | jmp off => rfl
  | jz rcond off =>
    by_cases h0 : s.reg rcond = 0
    · rw [exec_jz_zero h0, exec_jz_zero (s := s.withHostOf h) h0]; rfl
    · rw [exec_jz_nonzero h0, exec_jz_nonzero (s := s.withHostOf h) h0]; rfl

/-- An instruction run with another host side gives its own result, host side aside, and RET records the same value. -/
theorem exec_withHostOf_next {i : Instr} {s t : State} (hr : s.outcome = .running) (hx : exec i s = .next t) (h : State) :
    ∃ h', exec i (s.withHostOf h) = .next (t.withHostOf h') ∧ (t.outcome = .returned → h'.retval = t.retval) := by
  by_cases hi : i.opcode = .ret
  · cases i with
    | ret rs =>
      cases hx
      exact ⟨h.haltReturn (s.reg rs), rfl, fun _ => rfl⟩
    | _ => cases hi
  · exact ⟨h, by rw [exec_withHostOf hi, hx, onNext_next],
      fun hret => absurd ((outcome_eq_returned_iff hr hx).1 hret) hi⟩

theorem Visited.withHostOf {s s' : State} {i : Instr} (hv : Visited s i s') (h : State) :
    Visited (s.withHostOf h) i (s'.withHostOf h) := by
  cases hv with
  | hit hc => exact .hit hc
  | miss hc hd => exact .miss hc hd

theorem State.countIfCompleted_withHostOf (s h : State) :
    (s.withHostOf h).countIfCompleted = s.countIfCompleted.withHostOf h := by
  cases hf : s.outcome.isFailure with
  | true => rw [countIfCompleted_of_failure hf, countIfCompleted_of_failure (s := s.withHostOf h) hf]
  | false => rw [countIfCompleted_of_not_failure hf, countIfCompleted_of_not_failure (s := s.withHostOf h) hf]; rfl

/-- A step with another host side goes the same way, host side aside, and a step that returns records the same value. -/
theorem step_withHostOf {s t : State} (hstep : step s = .next t) (h : State) :
    ∃ h', step (s.withHostOf h) = .next (t.withHostOf h') ∧ (t.outcome = .returned → h'.retval = t.retval) := by
  obtain ⟨hr, hc⟩ := step_cases hstep
  have hrh : (s.withHostOf h).outcome = .running := hr
  cases hc with
  | outOfBounds hb => exact ⟨h, step_outOfBounds hrh hb, nofun⟩
  | limit hb hl => exact ⟨h, step_limit hrh hb hl, nofun⟩
  | undecodable hb hl hc e hd => exact ⟨h, step_undecodable hrh hb hl hc hd, nofun⟩
  | ran hb hl i s' u hv hx =>
    obtain ⟨-, -, -, hout, -⟩ := hv.kept
    obtain ⟨h', hx', hret⟩ := exec_withHostOf_next (hout.trans hr) hx h
    obtain ⟨-, -, -, hout', -, -, hval, -⟩ := countIfCompleted_kept u
    rw [hout', hval]
    exact ⟨h', by rw [step_ran hrh hb hl (hv.withHostOf h), hx', onNext_next, State.countIfCompleted_withHostOf], hret⟩

/-! ### Runs of every length -/

/-- A run with another host side goes the same way, host side aside, and records the same value if it returns. -/
theorem run_withHostOf (n : Nat) {s t h : State} (hret : s.outcome = .returned → h.retval = s.retval)
    (hrun : Host.Core.run Sys2Proof.core n s = .next t) :
    ∃ h', Host.Core.run Sys2Proof.core n (s.withHostOf h) = .next (t.withHostOf h') ∧
      (t.outcome = .returned → h'.retval = t.retval) := by
  induction n generalizing s h with
  | zero =>
    cases hrun
    exact ⟨h, rfl, hret⟩
  | succ n ih =>
    by_cases hr : s.outcome = .running
    · obtain ⟨u, hu, -⟩ := step_case hr
      obtain ⟨h', hu', hret'⟩ := step_withHostOf hu h
      rw [run_next hu] at hrun
      rw [run_next hu']
      exact ih hret' hrun
    · rw [run_fault (step_not_running hr)] at hrun
      cases hrun

theorem observe_withHostOf {t h : State} (hret : t.outcome = .returned → h.retval = t.retval) :
    observe (t.withHostOf h) = observe t := by
  by_cases ht : t.outcome = .returned
  · exact observe_congr rfl (hret ht)
  · rw [observe_not_returned ht, observe_not_returned (s := t.withHostOf h) ht]; rfl

/-- Settles O44: the two started runs differ in the host's side alone (`runStart_sameUpToHostSide`), and so they go the same
way (`run_withHostOf`). -/
theorem runsDependOnlyOnProgramAndLimit : Obligations.RunsDependOnlyOnProgramAndLimit := by
  unfold Obligations.RunsDependOnlyOnProgramAndLimit
  intro s s' hstore hlen hen hval _ n t hrun
  have hlimit : s'.runStart.run.limit = s.runStart.run.limit := by
    rw [State.runStart_limit, State.runStart_limit, hen]
    split
    · rename_i h
      rw [hval h]
    · rfl
  have hret : s.runStart.outcome = .returned → s'.runStart.retval = s.runStart.retval := nofun
  obtain ⟨h', hrun', hret'⟩ := run_withHostOf n hret hrun
  rw [← (runStart_sameUpToHostSide hstore hlen hlimit).eq_withHostOf] at hrun'
  exact ⟨_, hrun', observe_withHostOf hret', sameUpToHostSide_withHostOf t h'⟩

end Sys2Proof.Machine
end

