-- ==== Sys2Proof/Proofs/Instructions.lean ====
section
/-!
PROOFS. Proofs/Instructions.lean: what MOV, RET, DIV, STR, LDR, JMP and JZ do and leave unchanged (41_move_return.md to
44_branch.md), each from its equation and the frame of the operation it ends in.
-/

namespace Sys2Proof.Machine

/-! ### Move, return and branch -/

/-- Settles O12: MOV writes its register and goes to the next line (`State.setReg_advance_frame`). -/
theorem movWritesItsImmediate : Obligations.MovWritesItsImmediate := by
  unfold Obligations.MovWritesItsImmediate
  exact fun rd imm s => ⟨_, exec_mov rd imm s, s.setReg_advance_frame rd imm⟩

/-- Settles O13: RET halts the run with its register; a value in V survives the 17 bits of RETVAL
(`Laws.toInt_immBits`). -/
theorem retHaltsWithItsRegister : Obligations.RetHaltsWithItsRegister := by
  unfold Obligations.RetHaltsWithItsRegister
  refine fun rs s => ⟨_, exec_ret rs s, rfl, rfl, fun hv => ?value, fun _ => rfl, fun _ => rfl,
    ⟨rfl, rfl, rfl, rfl, rfl, rfl, rfl, rfl⟩, fun u hu => ?terminal⟩
  case value =>
    have hval : (s.haltReturn (s.reg rs)).retval.toInt = s.reg rs := Laws.toInt_immBits hv
    exact ⟨by rw [observe_returned rfl, hval], by rw [hostReadRetval_returned rfl, hval]⟩
  case terminal =>
    obtain ⟨hr, -⟩ := step_cases hu
    cases hr

/-- A jump changes the pc alone. -/
theorem State.setPc_frame (s : State) (p : Int) :
    SameRegs s (s.setPc p) ∧ SameMem s (s.setPc p) ∧ SameOutcome s (s.setPc p) ∧ SameRest s (s.setPc p) :=
  ⟨fun _ => rfl, fun _ => rfl, ⟨rfl, rfl⟩, rfl, rfl, rfl, rfl, rfl, rfl, rfl, rfl⟩

/-- Settles O19: JMP sets the pc and nothing else. -/
theorem jmpAddsItsOffset : Obligations.JmpAddsItsOffset := by
  unfold Obligations.JmpAddsItsOffset
  exact fun off s => ⟨_, exec_jmp off s, rfl, s.setPc_frame _⟩

/-- Settles O20: JZ sets the pc, by the zero test, and nothing else. -/
theorem jzBranchesExactlyOnZero : Obligations.JzBranchesExactlyOnZero := by
  unfold Obligations.JzBranchesExactlyOnZero
  intro rcond off s
  by_cases h : s.reg rcond = 0
  · exact ⟨_, exec_jz_zero h off, fun _ => rfl, fun hne => absurd h hne, s.setPc_frame _⟩
  · exact ⟨_, exec_jz_nonzero h off, fun h0 => absurd h0 h, fun _ => rfl, s.setPc_frame _⟩

/-! ### Division (42_arithmetic.md R132) -/

/-- The sign of the truncated quotient. -/
theorem quot_neg_iff (a b : Int) :
    quot a b < 0 ↔ ((a < 0 ∧ 0 < b) ∨ (0 < a ∧ b < 0)) ∧ b.natAbs ≤ a.natAbs := by
  rw [← Int.sign_eq_neg_one_iff_neg, quot, Int.sign_tdiv]
  split
  · rename_i hlt
    exact iff_of_false (by decide) fun ⟨_, hle⟩ => absurd hlt (Nat.not_lt.2 hle)
  · rename_i hle
    rw [← Int.sign_mul, Int.sign_eq_neg_one_iff_neg, mul_neg_iff, or_comm, and_iff_left (Nat.not_lt.1 hle)]

/-- Settles O15: a non-zero divisor writes the quotient (`exec_div_nonzero`), with the magnitude of `quot_natAbs`, the sign of
`quot_neg_iff` and the range of `quot_inV`. -/
theorem divWritesTheTruncatedQuotient : Obligations.DivWritesTheTruncatedQuotient := by
  unfold Obligations.DivWritesTheTruncatedQuotient
  intro rd rs1 rs2 s h0
  obtain ⟨hreg, hframe⟩ := s.setReg_advance_frame rd (quot (s.reg rs1) (s.reg rs2))
  refine ⟨_, exec_div_nonzero h0 rd rs1, ?_⟩
  rw [hreg]
  exact ⟨quot_natAbs _ _, quot_neg_iff _ _, fun hv => quot_inV hv _, hframe⟩

/-! ### Load and store (43_load_store.md) -/

/-- An exact address is a cell or lies beyond an end of the range. -/
theorem not_inA_iff (a : Int) : ¬ InA a ↔ a < 0 ∨ 65535 < a := by
  show ¬ (0 ≤ a ∧ a ≤ 65535) ↔ _
  omega

/-- A store in range changes the cell it names; one out of range changes none. -/
theorem storeCell_mem (s : State) (a v : Int) :
    (∀ b : Nat, a = (b : Int) → b ≤ 65535 → (s.storeCell a v).memRead b = v ∧ SameMemExcept b s (s.storeCell a v)) ∧
    ((a < 0 ∨ 65535 < a) → SameMem s (s.storeCell a v)) := by
  constructor
  · rintro b rfl hle
    rw [storeCell_inA (inA_natCast hle), Int.toNat_natCast]
    exact ⟨s.memRead_memWrite_same b v, fun c hc => s.memRead_memWrite_ne hc v⟩
  · intro hout c
    rw [storeCell_not_inA ((not_inA_iff a).2 hout)]

/-- A store changes memory alone. -/
theorem storeCell_frame (s : State) (a v : Int) :
    (s.storeCell a v).pc = s.pc ∧ SameRegs s (s.storeCell a v) ∧ SameOutcome s (s.storeCell a v) ∧
    SameRest s (s.storeCell a v) := by
  by_cases ha : InA a
  · rw [storeCell_inA ha]
    exact ⟨rfl, fun _ => rfl, ⟨rfl, rfl⟩, rfl, rfl, rfl, rfl, rfl, rfl, rfl, rfl⟩
  · rw [storeCell_not_inA ha]
    exact ⟨rfl, fun _ => rfl, ⟨rfl, rfl⟩, rfl, rfl, rfl, rfl, rfl, rfl, rfl, rfl⟩

/-- Settles O17: STR ends in one store at the exact address (`storeCell_mem`, `storeCell_frame`). -/
theorem strStoresInRangeOrDoesNothing : Obligations.StrStoresInRangeOrDoesNothing := by
  unfold Obligations.StrStoresInRangeOrDoesNothing
  intro rbase off rval s
  obtain ⟨hin, hout⟩ := storeCell_mem s (s.reg rbase + off) (s.reg rval)
  obtain ⟨hpc, hregs, hoc, hrest⟩ := storeCell_frame s (s.reg rbase + off) (s.reg rval)
  exact ⟨_, exec_str rbase off rval s, congrArg (· + 1) hpc, hin, hout, rfl, hregs, hoc, hrest⟩

/-- A load in range writes its register with the cell; one out of range keeps every register. -/
theorem loadCell_regs (s : State) (rdest : Reg) (a : Int) :
    (∀ b : Nat, a = (b : Int) → b ≤ 65535 →
      (s.loadCell rdest a).reg rdest = s.memRead b ∧ SameRegsExcept rdest s (s.loadCell rdest a)) ∧
    ((a < 0 ∨ 65535 < a) → SameRegs s (s.loadCell rdest a)) := by
  constructor
  · rintro b rfl hle
    rw [loadCell_inA (inA_natCast hle), Int.toNat_natCast]
    exact ⟨s.reg_setReg_same rdest _, fun r hr => s.reg_setReg_ne _ hr⟩
  · intro hout r
    rw [loadCell_not_inA ((not_inA_iff a).2 hout)]

/-- A load changes its register alone. -/
theorem loadCell_frame (s : State) (rdest : Reg) (a : Int) :
    (s.loadCell rdest a).pc = s.pc ∧ SameMem s (s.loadCell rdest a) ∧ SameOutcome s (s.loadCell rdest a) ∧
    SameRest s (s.loadCell rdest a) := by
  by_cases ha : InA a
  · rw [loadCell_inA ha]
    exact ⟨rfl, fun _ => rfl, ⟨rfl, rfl⟩, rfl, rfl, rfl, rfl, rfl, rfl, rfl, rfl⟩
  · rw [loadCell_not_inA ha]
    exact ⟨rfl, fun _ => rfl, ⟨rfl, rfl⟩, rfl, rfl, rfl, rfl, rfl, rfl, rfl, rfl⟩

/-- Settles O18: LDR ends in one load at the exact address (`loadCell_regs`, `loadCell_frame`). -/
theorem ldrLoadsInRangeOrKeepsItsRegister : Obligations.LdrLoadsInRangeOrKeepsItsRegister := by
  unfold Obligations.LdrLoadsInRangeOrKeepsItsRegister
  intro rdest rbase off s
  obtain ⟨hin, hout⟩ := loadCell_regs s rdest (s.reg rbase + off)
  obtain ⟨hpc, hmem, hoc, hrest⟩ := loadCell_frame s rdest (s.reg rbase + off)
  exact ⟨_, exec_ldr rdest rbase off s, congrArg (· + 1) hpc, hin, hout, hmem, hoc, hrest⟩

/-- Settles O26: the store leaves its value in the cell (`memRead_of_exec_str`), which the load reads by the same exact
address (`reg_of_exec_ldr`). -/
theorem loadReturnsTheLatestStore : Obligations.LoadReturnsTheLatestStore := by
  unfold Obligations.LoadReturnsTheLatestStore
  intro rbase off rval s ha
  obtain ⟨a, hcell, hle⟩ : ∃ a : Nat, s.reg rbase + off = (a : Int) ∧ a ≤ 65535 := by
    obtain ⟨h0, htop⟩ : 0 ≤ s.reg rbase + off ∧ s.reg rbase + off ≤ 65535 := ha
    exact ⟨(s.reg rbase + off).toNat, by omega, by omega⟩
  refine ⟨_, exec_str rbase off rval s, fun u rdest rbase' off' hmem haddr => ⟨_, exec_ldr rdest rbase' off' u, ?_⟩⟩
  have hstored := memRead_of_exec_str (exec_str rbase off rval s) hcell hle
  have hloaded := reg_of_exec_ldr (exec_ldr rdest rbase' off' u) (haddr.trans hcell) hle
  rw [hloaded, hmem a, hstored]

end Sys2Proof.Machine
end

