-- ==== Sys2Proof/Proofs/InstructionSet.lean ====
section
/-!
PROOFS. Proofs/InstructionSet.lean: properties of all instructions at once: which registers an instruction writes and reads
(10_state.md R22), and its next pc (R26).
-/

namespace Sys2Proof.Machine

/-! ### Registers written -/

/-- An instruction changes no register but its destination. -/
theorem Effect.destReg_of_reg_ne {i : Instr} {s t : State} {r : Reg} (h : Effect i s t) (hne : t.reg r ≠ s.reg r) :
    destReg i = some r := by
  cases h with
  | wrote rd v hd _ _ =>
    by_cases hr : r = rd
    · rw [hr, hd]
    · exact absurd (s.reg_setReg_ne v hr) hne
  | stored _ _ _ _ _ => exact absurd rfl hne
  | skipped _ => exact absurd rfl hne
  | jumped _ _ => exact absurd rfl hne
  | halted _ _ => exact absurd rfl hne
  | raised _ _ => exact absurd rfl hne

/-! ### Registers read -/

/-- `b` is the answer `a` with the value `v` in register `r`, or `a` itself where the instruction has overwritten `r`. -/
def AnswersOver (r : Reg) (v : Int) (dest : Option Reg) (a b : Answer) : Prop :=
  b = onNext (·.setReg r v) a ∨ (dest = some r ∧ b = a)

theorem State.setReg_setReg_same (s : State) (r : Reg) (v w : Int) : (s.setReg r v).setReg r w = s.setReg r w := by
  simp [State.setReg]

theorem State.setReg_setReg_comm (s : State) {r q : Reg} (h : r ≠ q) (v w : Int) :
    (s.setReg r v).setReg q w = (s.setReg q w).setReg r v := by
  have hval : r.val ≠ q.val := fun e => h (Fin.ext e)
  simp only [State.setReg, Vector.set_comm _ _ hval]

theorem writeReg_over (rd r : Reg) (w v : Int) (s : State) :
    AnswersOver r v (some rd) (.next (s.setReg rd w).advance) (.next ((s.setReg r v).setReg rd w).advance) := by
  by_cases h : r = rd
  · subst h
    exact .inr ⟨rfl, by rw [State.setReg_setReg_same]⟩
  · exact .inl (by rw [State.setReg_setReg_comm s h]; rfl)

theorem writeResult_over (rd r : Reg) (w v : Int) (s : State) :
    AnswersOver r v (some rd) (writeResult rd w s) (writeResult rd w (s.setReg r v)) := by
  by_cases hw : InV w
  · rw [writeResult_inV hw, writeResult_inV hw]
    exact writeReg_over rd r w v s
  · rw [writeResult_not_inV hw, writeResult_not_inV hw]
    exact .inl rfl

/-- The two operands of an arithmetic instruction that does not read `r` are the same whatever `r` holds. -/
theorem reg_setReg_pair {r rs1 rs2 : Reg} (h : r ∉ [rs1, rs2]) (s : State) (v : Int) :
    (s.setReg r v).reg rs1 = s.reg rs1 ∧ (s.setReg r v).reg rs2 = s.reg rs2 := by
  obtain ⟨h1, h2⟩ : r ≠ rs1 ∧ r ≠ rs2 := by simpa using h
  exact ⟨s.reg_setReg_ne v h1.symm, s.reg_setReg_ne v h2.symm⟩

theorem reg_setReg_single {r q : Reg} (h : r ∉ [q]) (s : State) (v : Int) : (s.setReg r v).reg q = s.reg q := by
  have hne : r ≠ q := by simpa using h
  exact s.reg_setReg_ne v hne.symm

/-- Another value in a register the instruction does not read changes nothing but that register. -/
theorem exec_over {i : Instr} {r : Reg} (h : r ∉ readRegs i) (s : State) (v : Int) :
    AnswersOver r v (destReg i) (exec i s) (exec i (s.setReg r v)) := by
  cases i with
  | mov rd imm => exact writeReg_over rd r imm v s
  | ret rs =>
    rw [exec_ret, exec_ret, reg_setReg_single h]
    exact .inl rfl
  | add rd rs1 rs2 =>
    obtain ⟨h1, h2⟩ := reg_setReg_pair h s v
    rw [exec_add, exec_add, h1, h2]
    exact writeResult_over rd r _ v s
  | sub rd rs1 rs2 =>
    obtain ⟨h1, h2⟩ := reg_setReg_pair h s v
    rw [exec_sub, exec_sub, h1, h2]
    exact writeResult_over rd r _ v s
  | mul rd rs1 rs2 =>
    obtain ⟨h1, h2⟩ := reg_setReg_pair h s v
    rw [exec_mul, exec_mul, h1, h2]
    exact writeResult_over rd r _ v s
  | div rd rs1 rs2 =>
    obtain ⟨h1, h2⟩ := reg_setReg_pair h s v
    by_cases h0 : s.reg rs2 = 0
    · rw [exec_div_zero h0, exec_div_zero (h2.trans h0)]
      exact .inl rfl
    · rw [exec_div_nonzero h0, exec_div_nonzero (h2.symm ▸ h0), h1, h2]
      exact writeReg_over rd r _ v s
  | str rbase off rval =>
    obtain ⟨h1, h2⟩ := reg_setReg_pair h s v
    rw [exec_str, exec_str, h1, h2]
    by_cases ha : InA (s.reg rbase + off)
    · rw [storeCell_inA ha, storeCell_inA ha]
      exact .inl rfl
    · rw [storeCell_not_inA ha, storeCell_not_inA ha]
      exact .inl rfl
  | ldr rdest rbase off =>
    rw [exec_ldr, exec_ldr, reg_setReg_single h]
    by_cases ha : InA (s.reg rbase + off)
    · rw [loadCell_inA ha, loadCell_inA ha]
      exact writeReg_over rdest r _ v s
    · rw [loadCell_not_inA ha, loadCell_not_inA ha]
      exact .inl rfl
  | jmp off => exact .inl rfl
  | jz rcond off =>
    have hcond := reg_setReg_single h s v
    by_cases h0 : s.reg rcond = 0
    · rw [exec_jz_zero h0, exec_jz_zero (hcond.trans h0)]
      exact .inl rfl
    · rw [exec_jz_nonzero h0, exec_jz_nonzero (hcond.symm ▸ h0)]
      exact .inl rfl

/-- Settles O21: an instruction changes its destination alone (`Effect.destReg_of_reg_ne`), does not see a register it does
not read (`exec_over`), and writes none when it raises (`Effect.eq_setOutcome`) or loads out of range. -/
theorem instructionsTouchOnlyNamedRegisters : Obligations.InstructionsTouchOnlyNamedRegisters := by
  unfold Obligations.InstructionsTouchOnlyNamedRegisters
  refine ⟨fun i s t r h hne => (exec_cases h).destReg_of_reg_ne hne, fun i s t r v hr h => ?reads,
    fun i s t hrun h hf => ?raises, fun rdest rbase off s t h ha => ?outOfRange⟩
  case reads =>
    have hover := exec_over hr s v
    rw [h] at hover
    rcases hover with hu | ⟨hd, hu⟩
    · exact ⟨_, hu, rfl, ⟨rfl, rfl⟩, fun _ => rfl, fun q hq => t.reg_setReg_ne v hq, .inl (t.reg_setReg_same r v)⟩
    · exact ⟨_, hu, rfl, ⟨rfl, rfl⟩, fun _ => rfl, fun _ _ => rfl, .inr ⟨hd, rfl⟩⟩
  case raises =>
    rw [(exec_cases h).eq_setOutcome hrun hf]
    exact fun _ => rfl
  case outOfRange =>
    rw [exec_ldr, loadCell_not_inA ha] at h
    cases h
    exact fun _ => rfl

/-! ### The next pc -/

/-- An instruction that is no branch and goes on moves the pc to the next line. -/
theorem Effect.pc_of_no_branch {i : Instr} {s t : State} (h : Effect i s t) (ht : t.outcome = .running)
    (hjmp : i.opcode ≠ .jmp) (hjz : i.opcode ≠ .jz) : t.pc = s.pc + 1 := by
  cases h with
  | wrote _ _ _ _ _ => rfl
  | stored _ _ _ _ _ => rfl
  | skipped _ => rfl
  | jumped _ hi =>
    rcases hi with ⟨off, rfl, -⟩ | ⟨rcond, off, rfl, -⟩
    · exact absurd rfl hjmp
    · exact absurd rfl hjz
  | halted _ _ => cases ht
  | raised k hk =>
    cases ht
    rcases hk with ⟨hk, -⟩ | ⟨hk, -⟩ <;> cases hk

/-- An instruction that ends the run keeps the pc. -/
theorem Effect.pc_of_ended {i : Instr} {s t : State} (h : Effect i s t) (hr : s.outcome = .running)
    (ht : t.outcome ≠ .running) : t.pc = s.pc := by
  cases h with
  | wrote _ _ _ _ _ => exact absurd hr ht
  | stored _ _ _ _ _ => exact absurd hr ht
  | skipped _ => exact absurd hr ht
  | jumped _ _ => exact absurd hr ht
  | halted _ _ => rfl
  | raised _ _ => rfl

theorem pc_of_jmp {off : Int} {s t : State} (h : exec (.jmp off) s = .next t) : t.pc = s.pc + off := by
  cases h
  rfl

theorem pc_of_jz {rcond : Reg} {off : Int} {s t : State} (h : exec (.jz rcond off) s = .next t) :
    t.pc = if s.reg rcond = 0 then s.pc + off else s.pc + 1 := by
  by_cases h0 : s.reg rcond = 0
  · rw [exec_jz_zero h0] at h
    cases h
    rw [if_pos h0, State.setPc_pc]
  · rw [exec_jz_nonzero h0] at h
    cases h
    rw [if_neg h0, State.advance_pc]

/-- Settles O23: JMP and JZ by their equations, every other instruction that goes on by `Effect.pc_of_no_branch`, and one that
ends the run by `Effect.pc_of_ended`. -/
theorem nextPcFollowsTheTable : Obligations.NextPcFollowsTheTable := by
  unfold Obligations.NextPcFollowsTheTable
  intro i s t h
  refine ⟨fun ho hr => ?completed, fun hr ht => (exec_cases h).pc_of_ended hr ht, fun hi => outcome_of_ret hi h⟩
  case completed =>
    have hgo : i.opcode ≠ .jmp → i.opcode ≠ .jz → t.pc = s.pc + 1 :=
      (exec_cases h).pc_of_no_branch (ho.trans hr)
    cases i with
    | jmp off => exact pc_of_jmp h
    | jz rcond off => exact pc_of_jz h
    | _ => exact hgo nofun nofun

end Sys2Proof.Machine
end
